-- ==== Sys2Proof/Word.lean ====
section
/-! DEFINITION. The value types of the CHIP-8 core: bytes, 16-bit words, 12-bit addresses of an
instruction field, register indices and key numbers (spec/00_scope.md R8, R10; spec/10_state.md R18, R30). -/

namespace Sys2Proof

/-- An 8-bit unsigned value: a general register, a timer, a memory byte (`REG_W`, `TIMER_W` of R8). -/
abbrev Byte := BitVec 8

/-- A 16-bit unsigned value: an instruction word, PC, I, a stack entry (`INSN_W`, `PC_W`, `I_W` of R8). -/
abbrev Word := BitVec 16

/-- The `nnn` field of an instruction word, 12 bits (R63). -/
abbrev Addr := BitVec 12

/-- A general register index, 0x0..0xF. A field is 4 bits wide, so no other index exists (R19). -/
abbrev Reg := Fin 16

/-- A key of the keypad, 0x0..0xF (`NKEYS` of R8). -/
abbrev Key := Fin 16

end Sys2Proof
end

