-- ==== Sys2Proof/Syntax.lean ====
section
/-! DEFINITION. The instruction set: one constructor for each of the 34 rows of spec/opcode_table.json
(spec/30_encoding.md R67). -/

namespace Sys2Proof

/-- The 34 instructions of R67. A register index is a `Reg` and an immediate has its field's width, so these
are well formed by construction (R19); DRW's row count is a plain number, checked by `Instr.WellFormed`. -/
inductive Instr where
  /-- 00E0 CLS (R115) -/
  | cls
  /-- 00EE RET (R88) -/
  | ret
  /-- 1nnn JP nnn (R89) -/
  | jp (nnn : Addr)
  /-- 2nnn CALL nnn (R90) -/
  | call (nnn : Addr)
  /-- 3xnn SE Vx, nn (R91) -/
  | seVxNn (x : Reg) (nn : Byte)
  /-- 4xnn SNE Vx, nn (R92) -/
  | sneVxNn (x : Reg) (nn : Byte)
  /-- 5xy0 SE Vx, Vy (R93) -/
  | seVxVy (x y : Reg)
  /-- 6xnn LD Vx, nn (R96) -/
  | ldVxNn (x : Reg) (nn : Byte)
  /-- 7xnn ADD Vx, nn (R98) -/
  | addVxNn (x : Reg) (nn : Byte)
  /-- 8xy0 LD Vx, Vy (R97) -/
  | ldVxVy (x y : Reg)
  /-- 8xy1 OR Vx, Vy (R99) -/
  | orVxVy (x y : Reg)
  /-- 8xy2 AND Vx, Vy (R100) -/
  | andVxVy (x y : Reg)
  /-- 8xy3 XOR Vx, Vy (R101) -/
  | xorVxVy (x y : Reg)
  /-- 8xy4 ADD Vx, Vy (R102) -/
  | addVxVy (x y : Reg)
  /-- 8xy5 SUB Vx, Vy (R103) -/
  | subVxVy (x y : Reg)
  /-- 8xy6 SHR Vx (R105); y selects nothing (R66) but is part of the word -/
  | shrVx (x y : Reg)
  /-- 8xy7 SUBN Vx, Vy (R104) -/
  | subnVxVy (x y : Reg)
  /-- 8xyE SHL Vx (R106); y selects nothing (R66) but is part of the word -/
  | shlVx (x y : Reg)
  /-- 9xy0 SNE Vx, Vy (R94) -/
  | sneVxVy (x y : Reg)
  /-- Annn LD I, nnn (R109) -/
  | ldINnn (nnn : Addr)
  /-- Bnnn JP V0, nnn (R95) -/
  | jpV0Nnn (nnn : Addr)
  /-- Cxnn RND Vx, nn (R107) -/
  | rndVxNn (x : Reg) (nn : Byte)
  /-- Dxyn DRW Vx, Vy, n (R117); n is the number of sprite rows, 0..15 (R65) -/
  | drw (x y : Reg) (n : Nat)
  /-- Ex9E SKP Vx (R119) -/
  | skpVx (x : Reg)
  /-- ExA1 SKNP Vx (R120) -/
  | sknpVx (x : Reg)
  /-- Fx07 LD Vx, DT (R121) -/
  | ldVxDt (x : Reg)
  /-- Fx0A LD Vx, K (R124) -/
  | ldVxK (x : Reg)
  /-- Fx15 LD DT, Vx (R122) -/
  | ldDtVx (x : Reg)
  /-- Fx18 LD ST, Vx (R123) -/
  | ldStVx (x : Reg)
  /-- Fx1E ADD I, Vx (R110) -/
  | addIVx (x : Reg)
  /-- Fx29 LD F, Vx (R111) -/
  | ldFVx (x : Reg)
  /-- Fx33 LD B, Vx (R112) -/
  | ldBVx (x : Reg)
  /-- Fx55 LD [I], Vx (R113); x is the index of the last register stored (R65) -/
  | ldMemVx (x : Reg)
  /-- Fx65 LD Vx, [I] (R114); x is the index of the last register loaded (R65) -/
  | ldVxMem (x : Reg)
  deriving DecidableEq, Repr

end Sys2Proof
end

