-- ==== Sys2Proof/WellFormed.lean ====
section
/-! DEFINITION. Which instructions have an encoding: the one operand that its type does not bound is DRW's
row count, a 4-bit field (spec/30_encoding.md R63, R65). Register indices and immediates are bounded by
their types (spec/10_state.md R19). -/

namespace Sys2Proof

/-- The instruction has an encoding: DRW's row count fits its 4-bit field (R65; entry 18). -/
def Instr.WellFormed : Instr → Bool
  | .cls => true
  | .ret => true
  | .jp _ => true
  | .call _ => true
  | .seVxNn _ _ => true
  | .sneVxNn _ _ => true
  | .seVxVy _ _ => true
  | .ldVxNn _ _ => true
  | .addVxNn _ _ => true
  | .ldVxVy _ _ => true
  | .orVxVy _ _ => true
  | .andVxVy _ _ => true
  | .xorVxVy _ _ => true
  | .addVxVy _ _ => true
  | .subVxVy _ _ => true
  | .shrVx _ _ => true
  | .subnVxVy _ _ => true
  | .shlVx _ _ => true
  | .sneVxVy _ _ => true
  | .ldINnn _ => true
  | .jpV0Nnn _ => true
  | .rndVxNn _ _ => true
  | .drw _ _ n => decide (n < 16)
  | .skpVx _ => true
  | .sknpVx _ => true
  | .ldVxDt _ => true
  | .ldVxK _ => true
  | .ldDtVx _ => true
  | .ldStVx _ => true
  | .addIVx _ => true
  | .ldFVx _ => true
  | .ldBVx _ => true
  | .ldMemVx _ => true
  | .ldVxMem _ => true

end Sys2Proof
end

