-- ==== Sys2Proof/Decode.lean ====
section
/-! DEFINITION. The decoder, total on words and on byte strings, the encoder, and the host's numbering of a
word's bits (spec/30_encoding.md R62 to R69). The encoding table is R67's, row for row; 32 of its 34 patterns
the spec itself takes from general knowledge (entry 17). -/

namespace Sys2Proof

/-! ## Fields (R63) -/

/-- `opcode = w[15:12]` -/
def fieldOpcode (w : Word) : BitVec 4 := w.extractLsb' 12 4
/-- `x = w[11:8]` -/
def fieldX (w : Word) : BitVec 4 := w.extractLsb' 8 4
/-- `y = w[7:4]` -/
def fieldY (w : Word) : BitVec 4 := w.extractLsb' 4 4
/-- `n = w[3:0]` -/
def fieldN (w : Word) : BitVec 4 := w.extractLsb' 0 4
/-- `nn = w[7:0]` -/
def fieldNn (w : Word) : Byte := w.extractLsb' 0 8
/-- `nnn = w[11:0]` -/
def fieldNnn (w : Word) : Addr := w.extractLsb' 0 12

/-- The register a 4-bit field names (R19). -/
def regOf (f : BitVec 4) : Reg := f.toFin
/-- The 4-bit field that names a register. -/
def ofReg (r : Reg) : BitVec 4 := BitVec.ofFin r

/-- Register index x of a word. -/
def regX (w : Word) : Reg := regOf (fieldX w)
/-- Register index y of a word. -/
def regY (w : Word) : Reg := regOf (fieldY w)

/-! ## The opcode map (R67) -/

/-- One row of R67: the words `w` with `w &&& mask = mtch` are this row's, and `build` reads their fields. -/
structure OpRow where
  mask : Word
  mtch : Word
  build : Word → Instr

/-- `(w & mask) == match` (R67). -/
def OpRow.accepts (r : OpRow) (w : Word) : Bool := w &&& r.mask == r.mtch

/-- Rows 1 to 9 of R67. -/
def opRowsA : List OpRow :=
  [ ⟨0xFFFF, 0x00E0, fun _ => .cls⟩,
    ⟨0xFFFF, 0x00EE, fun _ => .ret⟩,
    ⟨0xF000, 0x1000, fun w => .jp (fieldNnn w)⟩,
    ⟨0xF000, 0x2000, fun w => .call (fieldNnn w)⟩,
    ⟨0xF000, 0x3000, fun w => .seVxNn (regX w) (fieldNn w)⟩,
    ⟨0xF000, 0x4000, fun w => .sneVxNn (regX w) (fieldNn w)⟩,
    ⟨0xF00F, 0x5000, fun w => .seVxVy (regX w) (regY w)⟩,
    ⟨0xF000, 0x6000, fun w => .ldVxNn (regX w) (fieldNn w)⟩,
    ⟨0xF000, 0x7000, fun w => .addVxNn (regX w) (fieldNn w)⟩ ]

/-- Rows 10 to 18 of R67, family 8. -/
def opRowsB : List OpRow :=
  [ ⟨0xF00F, 0x8000, fun w => .ldVxVy (regX w) (regY w)⟩,
    ⟨0xF00F, 0x8001, fun w => .orVxVy (regX w) (regY w)⟩,
    ⟨0xF00F, 0x8002, fun w => .andVxVy (regX w) (regY w)⟩,
    ⟨0xF00F, 0x8003, fun w => .xorVxVy (regX w) (regY w)⟩,
    ⟨0xF00F, 0x8004, fun w => .addVxVy (regX w) (regY w)⟩,
    ⟨0xF00F, 0x8005, fun w => .subVxVy (regX w) (regY w)⟩,
    ⟨0xF00F, 0x8006, fun w => .shrVx (regX w) (regY w)⟩,
    ⟨0xF00F, 0x8007, fun w => .subnVxVy (regX w) (regY w)⟩,
    ⟨0xF00F, 0x800E, fun w => .shlVx (regX w) (regY w)⟩ ]

/-- Rows 19 to 25 of R67. -/
def opRowsC : List OpRow :=
  [ ⟨0xF00F, 0x9000, fun w => .sneVxVy (regX w) (regY w)⟩,
    ⟨0xF000, 0xA000, fun w => .ldINnn (fieldNnn w)⟩,
    ⟨0xF000, 0xB000, fun w => .jpV0Nnn (fieldNnn w)⟩,
    ⟨0xF000, 0xC000, fun w => .rndVxNn (regX w) (fieldNn w)⟩,
    ⟨0xF000, 0xD000, fun w => .drw (regX w) (regY w) (fieldN w).toNat⟩,
    ⟨0xF0FF, 0xE09E, fun w => .skpVx (regX w)⟩,
    ⟨0xF0FF, 0xE0A1, fun w => .sknpVx (regX w)⟩ ]

/-- Rows 26 to 34 of R67, family F. -/
def opRowsD : List OpRow :=
  [ ⟨0xF0FF, 0xF007, fun w => .ldVxDt (regX w)⟩,
    ⟨0xF0FF, 0xF00A, fun w => .ldVxK (regX w)⟩,
    ⟨0xF0FF, 0xF015, fun w => .ldDtVx (regX w)⟩,
    ⟨0xF0FF, 0xF018, fun w => .ldStVx (regX w)⟩,
    ⟨0xF0FF, 0xF01E, fun w => .addIVx (regX w)⟩,
    ⟨0xF0FF, 0xF029, fun w => .ldFVx (regX w)⟩,
    ⟨0xF0FF, 0xF033, fun w => .ldBVx (regX w)⟩,
    ⟨0xF0FF, 0xF055, fun w => .ldMemVx (regX w)⟩,
    ⟨0xF0FF, 0xF065, fun w => .ldVxMem (regX w)⟩ ]

/-- The 34 rows of R67, in its order. -/
def opRows : List OpRow := opRowsA ++ opRowsB ++ opRowsC ++ opRowsD

/-! ## Decoding (R68) -/

/-- `Decode(w)`: the first row that accepts the word, with its fields; `none` is `Illegal` (R68, R69). -/
def decodeWord (w : Word) : Option Instr := (opRows.find? (·.accepts w)).map (·.build w)

/-- Why a byte string decodes to no instruction. -/
inductive DecodeError where
  /-- Fewer than the 2 bytes every instruction takes (R62). -/
  | truncated
  /-- The word matches no row of R67 (R69). -/
  | illegal (w : Word)
  deriving DecidableEq, Repr

/-- A word from its bytes: the byte at the lower address is `w[15:8]` (R46). -/
def beWord (hi lo : Byte) : Word := hi ++ lo

/-- Byte at the lower address of a word (R46). -/
def highByte (w : Word) : Byte := w.extractLsb' 8 8
/-- Byte at the higher address of a word (R46). -/
def lowByte (w : Word) : Byte := w.extractLsb' 0 8

/-- Decode the instruction at the front of a byte string; exactly 2 bytes are consumed (R62). -/
def decode : List Byte → Except DecodeError (Instr × List Byte)
  | hi :: lo :: rest =>
    match decodeWord (beWord hi lo) with
    | some i => .ok (i, rest)
    | none => .error (.illegal (beWord hi lo))
  | [_] => .error .truncated
  | [] => .error .truncated

/-- The instruction the decoder reads from a word given as a number of `nbits` bits, bit 0 the least
significant. An instruction is one 16-bit word, stored high byte first (R46, R62). -/
def decodeTableWord (nbits w : Nat) : Option Instr :=
  let word : Word := BitVec.ofNat 16 (w % 2 ^ nbits)
  match decode [highByte word, lowByte word] with
  | .ok (i, _) => some i
  | .error _ => none

/-! ## Encoding (R64, R67) -/

/-- Format `nnn`: opcode and a 12-bit address. -/
def encNnn (op : BitVec 4) (nnn : Addr) : Word := op ++ nnn
/-- Format `xnn`: opcode, x and an 8-bit immediate. -/
def encXnn (op : BitVec 4) (x : Reg) (nn : Byte) : Word := (op ++ ofReg x : BitVec 8) ++ nn
/-- Formats `xy` and `xyn`: opcode, x, y and the low nibble. -/
def encXyn (op : BitVec 4) (x y : Reg) (n : BitVec 4) : Word :=
  (op ++ ofReg x : BitVec 8) ++ (ofReg y ++ n : BitVec 8)

/-- The word of an instruction (R64, R67). -/
def encode : Instr → Word
  | .cls => 0x00E0
  | .ret => 0x00EE
  | .jp nnn => encNnn 0x1 nnn
  | .call nnn => encNnn 0x2 nnn
  | .seVxNn x nn => encXnn 0x3 x nn
  | .sneVxNn x nn => encXnn 0x4 x nn
  | .seVxVy x y => encXyn 0x5 x y 0x0
  | .ldVxNn x nn => encXnn 0x6 x nn
  | .addVxNn x nn => encXnn 0x7 x nn
  | .ldVxVy x y => encXyn 0x8 x y 0x0
  | .orVxVy x y => encXyn 0x8 x y 0x1
  | .andVxVy x y => encXyn 0x8 x y 0x2
  | .xorVxVy x y => encXyn 0x8 x y 0x3
  | .addVxVy x y => encXyn 0x8 x y 0x4
  | .subVxVy x y => encXyn 0x8 x y 0x5
  | .shrVx x y => encXyn 0x8 x y 0x6
  | .subnVxVy x y => encXyn 0x8 x y 0x7
  | .shlVx x y => encXyn 0x8 x y 0xE
  | .sneVxVy x y => encXyn 0x9 x y 0x0
  | .ldINnn nnn => encNnn 0xA nnn
  | .jpV0Nnn nnn => encNnn 0xB nnn
  | .rndVxNn x nn => encXnn 0xC x nn
  | .drw x y n => encXyn 0xD x y (BitVec.ofNat 4 n)
  | .skpVx x => encXnn 0xE x 0x9E
  | .sknpVx x => encXnn 0xE x 0xA1
  | .ldVxDt x => encXnn 0xF x 0x07
  | .ldVxK x => encXnn 0xF x 0x0A
  | .ldDtVx x => encXnn 0xF x 0x15
  | .ldStVx x => encXnn 0xF x 0x18
  | .addIVx x => encXnn 0xF x 0x1E
  | .ldFVx x => encXnn 0xF x 0x29
  | .ldBVx x => encXnn 0xF x 0x33
  | .ldMemVx x => encXnn 0xF x 0x55
  | .ldVxMem x => encXnn 0xF x 0x65

/-- The instruction's bytes as memory holds them, the high byte first (R46). -/
def encodeBytes (i : Instr) : List Byte := [highByte (encode i), lowByte (encode i)]

end Sys2Proof
end

