-- ==== Sys2Proof/Config.lean ====
section
/-! DEFINITION. What the spec fixes as constants (spec/00_scope.md R8), the parameters it leaves open with
their defaults (R9), and the two free values: the random byte (R15) and the host's schedule
(spec/60_exceptions.md R135). -/

namespace Sys2Proof

/-- `MEM_SIZE` (R8): addresses 0x000 to 0xFFF exist. -/
def Config.memSize : Nat := 0x1000
/-- `PROG_BASE` (R8): the reset PC and the lowest address a program may fetch from or write to. -/
def Config.progBase : Nat := 0x200
/-- The highest address an instruction can be fetched from (R53). -/
def Config.lastFetch : Nat := 0xFFE
/-- `FONT_BASE` (R8). -/
def Config.fontBase : Nat := 0x000
/-- `GLYPH_BYTES` (R8): bytes of one font glyph. -/
def Config.glyphBytes : Nat := 5
/-- `FB_BASE` (R8): the first framebuffer byte. -/
def Config.fbBase : Nat := 0xF00
/-- `FB_SIZE` (R8): the framebuffer's bytes. -/
def Config.fbSize : Nat := 256
/-- `SCREEN_W` (R8), pixels. -/
def Config.screenW : Nat := 64
/-- `SCREEN_H` (R8), pixels. -/
def Config.screenH : Nat := 32
/-- Framebuffer bytes of one pixel row (R45). -/
def Config.rowBytes : Nat := 8
/-- `STACK_DEPTH` (R8). -/
def Config.stackDepth : Nat := 16
/-- `ROM_MAX` (R8): 4096 − 0x200 bytes. -/
def Config.romMax : Nat := 3584

/-- `drawEdge` (R9, R116): what happens to the part of a sprite past the right or bottom edge. -/
inductive Config.DrawEdge where
  | wrap
  | clip
  deriving DecidableEq, Repr

/-- `subWriteOrder` (R9, R103): which of the two writes of SUB and SUBN comes last. -/
inductive Config.SubWriteOrder where
  | flagThenValue
  | valueThenFlag
  deriving DecidableEq, Repr

/-- `keyClearPolicy` (R9, R81): which completed cycles clear `keyDown`. -/
inductive Config.KeyClearPolicy where
  | everyCycle
  | afterWaitOnly
  deriving DecidableEq, Repr

/-- The parameters the spec leaves open, each "a named argument" of the model (R9). They stand in State,
where no step changes them (DESIGN CHOICE, entry 3). -/
structure Config.Params where
  drawEdge : Config.DrawEdge
  subWriteOrder : Config.SubWriteOrder
  keyClearPolicy : Config.KeyClearPolicy
  fontData : Vector Byte 80
  deriving DecidableEq, Repr

/-- The glyphs 0 to 7 of the default font (R37). -/
def Config.fontLow : Vector Byte 40 :=
  #v[0xF0, 0x90, 0x90, 0x90, 0xF0,
     0x20, 0x60, 0x20, 0x20, 0x70,
     0xF0, 0x10, 0xF0, 0x80, 0xF0,
     0xF0, 0x10, 0xF0, 0x10, 0xF0,
     0x90, 0x90, 0xF0, 0x10, 0x10,
     0xF0, 0x80, 0xF0, 0x10, 0xF0,
     0xF0, 0x80, 0xF0, 0x90, 0xF0,
     0xF0, 0x10, 0x20, 0x40, 0x40]

/-- The glyphs 8 to F of the default font (R37). -/
def Config.fontHigh : Vector Byte 40 :=
  #v[0xF0, 0x90, 0xF0, 0x90, 0xF0,
     0xF0, 0x90, 0xF0, 0x10, 0xF0,
     0xF0, 0x90, 0xF0, 0x90, 0x90,
     0xE0, 0x90, 0xE0, 0x90, 0xE0,
     0xF0, 0x80, 0x80, 0x80, 0xF0,
     0xE0, 0x90, 0x90, 0x90, 0xE0,
     0xF0, 0x80, 0xF0, 0x80, 0xF0,
     0xF0, 0x80, 0xF0, 0x80, 0x80]

/-- The default `fontData`: the table of R37. -/
def Config.defaultFont : Vector Byte 80 := Config.fontLow ++ Config.fontHigh

/-- The defaults of R9. -/
def Config.defaults : Config.Params where
  drawEdge := .wrap
  subWriteOrder := .flagThenValue
  keyClearPolicy := .everyCycle
  fontData := Config.defaultFont

/-- FREE VALUE. `RandomByte()`: the byte the environment answers at the k-th draw (R15, R107). Nothing
constrains it (entry 4). -/
opaque Config.randomByte : Nat → Byte

/-- What the host can do between two cycles (spec/60_exceptions.md R141). Inspection needs no move: it reads
the state. -/
inductive HostMove where
  /-- Run one cycle (spec/40_cycle.md R82). -/
  | cycle
  /-- Apply one timer tick (spec/60_exceptions.md R134). -/
  | tick
  /-- `initialize` (spec/70_reset_and_hazards.md R147). -/
  | initMachine
  /-- `loadProgram(rom)`; `none` is a ROM that cannot be read (R148). -/
  | loadProgram (rom : Option (List Byte))
  /-- Write `keyDown` (spec/60_exceptions.md R142). -/
  | setKey (key : Option Key)
  /-- Report a key press that ends a wait (R143). -/
  | keyReport (key : Option Key)
  /-- Clear `redrawPending` after painting (R144). -/
  | ackRedraw
  /-- Clear `running` on a quit request (R144). -/
  | quit
  deriving DecidableEq, Repr

/-- FREE VALUE. The moves the host makes in its k-th round before the cycle or the tick that ends the round
(spec/60_exceptions.md R135: any interleaving). Nothing constrains them (entry 21). -/
opaque Config.hostGap : Nat → List HostMove

end Sys2Proof
end

