-- ==== Sys2Proof/Machine/State.lean ====
section
/-! DEFINITION. The Machine State of spec/10_state.md as plain data, the outcomes' reasons, and the state
right after `initialize` (R40). -/

namespace Sys2Proof.Machine

/-- Why a step has no next state. Both are safe: the spec itself gives the machine no step there. A fault of
an instruction is not one of these: it is a next state with `State.fault` written (entry 5). -/
inductive Fault where
  /-- A cycle or tick on a core whose fault record is set: no step exists until `initialize`
  (spec/40_cycle.md R74, spec/60_exceptions.md R134). Raised by the cycle controller and the tick. Safe. -/
  | coreFaulted
  /-- A cycle or tick with `running = 0`: the normal end of a run (spec/40_cycle.md R75, R134). Raised by the
  cycle controller and the tick. Safe. -/
  | halted
  deriving DecidableEq, Repr

/-- Why a step is refused. -/
inductive Refusal where
  /-- An instruction that has no meaning in this model; raised by no arm of `exec` (every instruction has its
  meaning). Safe. -/
  | notModelled (mnemonic : String)
  /-- `loadProgram` of a ROM that cannot be read (spec/60_exceptions.md R127). Raised by the host move. Safe:
  the load changes no state. -/
  | romUnreadable
  /-- `loadProgram` of a ROM of 0 bytes (R127). Raised by the host move. Safe. -/
  | romEmpty
  /-- `loadProgram` of a ROM of more than 3584 bytes (R127). Raised by the host move. Safe. -/
  | romTooLarge
  /-- `loadProgram` other than once, after `initialize` and before the first cycle or tick: no such move
  exists (spec/70_reset_and_hazards.md R149; entry 2). Raised by the host move. Safe. -/
  | loadNotOpen
  /-- A key report while `waitingForKey = 0`: no such move exists (spec/60_exceptions.md R143; entry 12).
  Raised by the host move. Safe. -/
  | reportWhileNotWaiting
  deriving DecidableEq, Repr

/-- The fault codes of spec/60_exceptions.md R126. -/
inductive FaultCode where
  | illegalInstruction
  | stackOverflow
  | stackUnderflow
  | fetchOutOfRange
  | memoryOutOfRange
  | protectedWrite
  | fontDigitOutOfRange
  | keyWaitNoKey
  deriving DecidableEq, Repr

/-- The fault record of spec/10_state.md R35. `word` is `none` when the fetch itself faulted; `info` is an
exact number, since an address can exceed 16 bits (spec/20_memory.md R50; entry 14). -/
structure FaultRecord where
  code : FaultCode
  pc : Word
  word : Option Word
  info : Nat
  deriving DecidableEq, Repr

/-- The Machine State. The first block is the spec's own state; `params` are the open parameters of
spec/00_scope.md R9 (entry 3); the last block is the model's own (entries 1, 2, 4 and 21). -/
structure State where
  /-- V0 to VF (R18) -/
  v : Vector Byte 16
  /-- I, the index register (R26) -/
  idx : Word
  /-- PC (R23) -/
  pc : Word
  /-- DT, the delay timer (R27) -/
  dt : Byte
  /-- ST, the sound timer (R28) -/
  st : Byte
  /-- stack[0..15] (R29) -/
  stack : Vector Word 16
  /-- SP, the number of pending calls, 0..16 (R29) -/
  sp : Fin 17
  /-- memory (spec/20_memory.md R43): addresses strictly rising, no entry equal to its reset byte -/
  mem : List Host.Cell
  /-- keyDown: none or the pressed key (R30) -/
  keyDown : Option Key
  /-- waitingForKey (R31) -/
  waitingForKey : Bool
  /-- keyWaitSatisfied (R32) -/
  keyWaitSatisfied : Bool
  /-- redrawPending (R33) -/
  redrawPending : Bool
  /-- running (R34) -/
  running : Bool
  /-- The fault record (R35) -/
  fault : Option FaultRecord
  /-- The open parameters (spec/00_scope.md R9). No step changes them. -/
  params : Config.Params
  /-- The index of the next random draw (spec/00_scope.md R15; DESIGN CHOICE, entry 4). -/
  draws : Nat
  /-- The host's pending moves, next first (spec/60_exceptions.md R141; DESIGN CHOICE, entry 1). -/
  hostMoves : List HostMove
  /-- The index of the host's next round of moves (spec/60_exceptions.md R135; DESIGN CHOICE, entry 21). -/
  rounds : Nat
  /-- No successful load, cycle or tick has happened since `initialize` (spec/70_reset_and_hazards.md R149;
  DESIGN CHOICE, entry 2). -/
  loadOpen : Bool
  deriving DecidableEq, Repr

/-- The state after `initialize` and before `loadProgram` (spec/10_state.md R40), with the default parameters
of spec/00_scope.md R9. Memory lists nothing: an unlisted address reads as its reset byte. -/
def State.reset : State where
  v := Vector.replicate 16 0
  idx := 0
  pc := 0x200
  dt := 0
  st := 0
  stack := Vector.replicate 16 0
  sp := 0
  mem := []
  keyDown := none
  waitingForKey := false
  keyWaitSatisfied := false
  redrawPending := false
  running := true
  fault := none
  params := Config.defaults
  draws := 0
  hostMoves := []
  rounds := 0
  loadOpen := true

end Sys2Proof.Machine
end

