-- ==== Sys2Proof/Machine/Ops.lean ====
section
/-! DEFINITION. The named operations over registers, memory, the call stack and the fault record. Each state
element has its one home here (spec/10_state.md, spec/20_memory.md, spec/40_cycle.md R80). -/

namespace Sys2Proof.Machine

/-- The outcome of a meaning or a step. -/
abbrev Result := Host.Outcome State Fault Refusal

/-! ## Registers -/

/-- `V[x]` (spec/10_state.md R18). -/
def State.V (s : State) (x : Reg) : Byte := s.v[x.val]

/-- `V[x] <- b` (R18). -/
def State.setV (x : Reg) (b : Byte) (s : State) : State := { s with v := s.v.set x.val b x.isLt }

/-- The flag register VF, which is V[15] (R20). -/
def vf : Reg := 15

/-- `PC <- target`. -/
def State.setPc (target : Word) (s : State) : State := { s with pc := target }

/-- `PC <- (PC + 2) mod 2^16`: the post-fetch advance and the taken skip (R24). -/
def State.pcForward (s : State) : State := s.setPc (s.pc + 2)

/-- `PC <- (PC - 2) mod 2^16`: the rewind of a waiting FX0A (R24). -/
def State.pcRewind (s : State) : State := s.setPc (s.pc - 2)

/-- `I <- a` (R26). -/
def State.setI (a : Word) (s : State) : State := { s with idx := a }

/-- `DT <- b` (R27). -/
def State.setDt (b : Byte) (s : State) : State := { s with dt := b }

/-- `ST <- b` (R28). -/
def State.setSt (b : Byte) (s : State) : State := { s with st := b }

/-- `keyDown <- k` (R30). -/
def State.setKeyDown (k : Option Key) (s : State) : State := { s with keyDown := k }

/-- `waitingForKey <- w` (R31). -/
def State.setWaiting (w : Bool) (s : State) : State := { s with waitingForKey := w }

/-- `keyWaitSatisfied <- w` (R32). -/
def State.setSatisfied (w : Bool) (s : State) : State := { s with keyWaitSatisfied := w }

/-- `redrawPending <- b` (R33). -/
def State.setRedraw (b : Bool) (s : State) : State := { s with redrawPending := b }

/-- `running <- b` (R34). -/
def State.setRunning (b : Bool) (s : State) : State := { s with running := b }

/-- Open or close the time in which a program may be loaded (entry 2). -/
def State.setLoadOpen (b : Bool) (s : State) : State := { s with loadOpen := b }

/-- The host has these moves pending, and its next round is this one (entries 1 and 21). -/
def State.setSchedule (moves : List HostMove) (round : Nat) (s : State) : State :=
  { s with hostMoves := moves, rounds := round }

/-! ## Memory (spec/20_memory.md) -/

/-- What memory holds after `initialize` at an address: the font, then zero (spec/10_state.md R40). Unlisted
addresses read as this (entry 9). -/
def resetByte (p : Config.Params) (a : Nat) : Byte := (p.fontData[a - Config.fontBase]?).getD 0

/-- The byte listed at an address, if one is. -/
def Memory.lookup : List Host.Cell → Nat → Option Byte
  | [], _ => none
  | (b, w) :: rest, a => if b = a then some w else Memory.lookup rest a

/-- List a byte at an address, keeping addresses rising. -/
def Memory.insert (a : Nat) (w : Byte) : List Host.Cell → List Host.Cell
  | [] => [(a, w)]
  | (b, u) :: rest =>
    if a < b then (a, w) :: (b, u) :: rest
    else if a = b then (a, w) :: rest
    else (b, u) :: Memory.insert a w rest

/-- List nothing at an address. -/
def Memory.erase (a : Nat) (m : List Host.Cell) : List Host.Cell := m.filter (fun c => c.1 != a)

/-- Addresses strictly rise from one entry to the next. -/
def Memory.rising : List Host.Cell → Bool
  | [] => true
  | (a, _) :: rest => rest.all (fun c => decide (a < c.1)) && Memory.rising rest

/-- The canonical form: addresses strictly rising, every one an address of R43, and no entry equal to what an
unlisted address reads as. -/
def Memory.wf (p : Config.Params) (m : List Host.Cell) : Bool :=
  Memory.rising m && m.all (fun c => decide (c.1 < Config.memSize) && c.2 != resetByte p c.1)

/-- `memory[a]` with no check (the check is made before, R54). -/
def State.peek (s : State) (a : Nat) : Byte := (Memory.lookup s.mem a).getD (resetByte s.params a)

/-- `memory[a] <- w` with no check; it changes only the addressed byte (R49). -/
def State.poke (a : Nat) (w : Byte) (s : State) : State :=
  { s with mem := if w = resetByte s.params a then Memory.erase a s.mem else Memory.insert a w s.mem }

/-- A byte to store and the address it goes to. -/
abbrev Store := Nat × Byte

/-- Perform the stores in the order given. -/
def State.pokeAll (stores : List Store) (s : State) : State :=
  stores.foldl (fun t c => t.poke c.1 c.2) s

/-- A check that failed: the code and the info it records (spec/60_exceptions.md R126). -/
abbrev Failure := FaultCode × Nat

/-- The test of `MemRead` (R51). -/
def readCheck (a : Nat) : Option Failure :=
  if Config.memSize ≤ a then some (.memoryOutOfRange, a) else none

/-- The tests of `MemWrite`, MemoryOutOfRange first (R52). -/
def writeCheck (a : Nat) : Option Failure :=
  if Config.memSize ≤ a then some (.memoryOutOfRange, a)
  else if a < Config.progBase then some (.protectedWrite, a)
  else none

/-- The first failure among the addresses an instruction will read, in the order given (R54). -/
def readChecks (as : List Nat) : Option Failure := as.findSome? readCheck

/-- The first failure among the addresses an instruction will write, in the order given (R54). -/
def writeChecks (as : List Nat) : Option Failure := as.findSome? writeCheck

/-! ## Faults (spec/40_cycle.md R80, spec/60_exceptions.md R129) -/

/-- The number of a fault code (spec/60_exceptions.md R126). -/
def faultNumber : FaultCode → Nat
  | .illegalInstruction => 1
  | .stackOverflow => 2
  | .stackUnderflow => 3
  | .fetchOutOfRange => 4
  | .memoryOutOfRange => 5
  | .protectedWrite => 6
  | .fontDigitOutOfRange => 7
  | .keyWaitNoKey => 8

/-- Taking a fault: PC is the address of the faulting instruction, the record is written, and nothing else
changes (R80, R129). -/
def State.takeFault (code : FaultCode) (addr : Word) (word : Option Word) (info : Nat) (s : State) : State :=
  { s with pc := addr, fault := some { code := code, pc := addr, word := word, info := info } }

/-- `raise Fault(code, info)` in the handler of `i`, before it has changed anything. On entry PC is
`addr + 2` (R77), so the instruction's address is PC − 2 (entry 6). -/
def State.raiseIn (i : Instr) (f : Failure) (s : State) : State :=
  s.takeFault f.1 (s.pc - 2) (some (encode i)) f.2

/-- Run the rest of a handler if its checks pass, else raise the failure (R54). -/
def State.guarded (i : Instr) (check : Option Failure) (run : State → State) (s : State) : State :=
  match check with
  | some f => s.raiseIn i f
  | none => run s

/-! ## Call stack (spec/10_state.md R29) -/

/-- `stack[k]`, 0 at no entry; only entries below SP are ever read (R29). -/
def State.stackAt (s : State) (k : Nat) : Word := (s.stack[k]?).getD 0

/-- `stack[SP] <- a; SP <- SP + 1` (R29). A full stack is left as it is: CALL checks for it first (R90; entry 20). -/
def State.push (a : Word) (s : State) : State :=
  if h : s.sp.val < 16 then
    { s with stack := s.stack.set s.sp.val a h, sp := ⟨s.sp.val + 1, by omega⟩ }
  else s

/-- `SP <- SP - 1; PC <- stack[SP]` (R29). An empty stack is left as it is: RET checks for it first (R88; entry 20). -/
def State.popToPc (s : State) : State :=
  if 0 < s.sp.val then
    { s with sp := ⟨s.sp.val - 1, by omega⟩, pc := s.stackAt (s.sp.val - 1) }
  else s

end Sys2Proof.Machine
end

