-- ==== Sys2Proof/Machine/Flags.lean ====
section
/-! DEFINITION. The arithmetic of the ALU and its one flag, VF (spec/10_state.md R21, R22;
spec/42_alu.md R102 to R108). -/

namespace Sys2Proof.Machine

/-- A flag as the byte VF receives. -/
def flagByte (f : Bool) : Byte := if f then 1 else 0

/-- `trunc_8`: a value modulo 256 (spec/00_scope.md R12). -/
def trunc8 (n : Nat) : Byte := BitVec.ofNat 8 n

/-- `(a + b) mod 256` (R108). -/
def addByte (a b : Byte) : Byte := trunc8 (a.toNat + b.toNat)

/-- The carry of ADD: the exact sum is above 255 (R102). -/
def addCarry (a b : Byte) : Bool := decide (255 < a.toNat + b.toNat)

/-- `(a - b) mod 256` (R103). -/
def subByte (a b : Byte) : Byte := trunc8 (256 + a.toNat - b.toNat)

/-- The flag of SUB: strictly greater, so equal operands give 0 (R103). -/
def subFlag (a b : Byte) : Bool := decide (b.toNat < a.toNat)

/-- `a >> 1`, logical (R105). -/
def shrByte (a : Byte) : Byte := trunc8 (a.toNat / 2)

/-- `(a << 1) mod 256` (R106). -/
def shlByte (a : Byte) : Byte := trunc8 (2 * a.toNat)

/-- The two writes of an instruction that also writes VF, in the order given. With x = F the last one
decides VF (spec/10_state.md R22). -/
def State.writeWithFlag (order : Config.SubWriteOrder) (x : Reg) (value : Byte) (flag : Bool)
    (s : State) : State :=
  match order with
  | .flagThenValue => (s.setV vf (flagByte flag)).setV x value
  | .valueThenFlag => (s.setV x value).setV vf (flagByte flag)

end Sys2Proof.Machine
end

