-- ==== Sys2Proof/Machine/Alu.lean ====
section
/-! DEFINITION. Register load, arithmetic, logic, shift and random instructions (spec/42_alu.md). Operands are
read before any write (spec/00_scope.md R16). -/

namespace Sys2Proof.Machine

/-- LD Vx, nn (R96). -/
def execLdVxNn (x : Reg) (nn : Byte) (s : State) : Result := .next (s.setV x nn)

/-- LD Vx, Vy (R97). -/
def execLdVxVy (x y : Reg) (s : State) : Result := .next (s.setV x (s.V y))

/-- ADD Vx, nn (R98): no flag. -/
def execAddVxNn (x : Reg) (nn : Byte) (s : State) : Result := .next (s.setV x (addByte (s.V x) nn))

/-- OR Vx, Vy (R99): VF is not reset. -/
def execOrVxVy (x y : Reg) (s : State) : Result := .next (s.setV x (s.V x ||| s.V y))

/-- AND Vx, Vy (R100). -/
def execAndVxVy (x y : Reg) (s : State) : Result := .next (s.setV x (s.V x &&& s.V y))

/-- XOR Vx, Vy (R101). -/
def execXorVxVy (x y : Reg) (s : State) : Result := .next (s.setV x (s.V x ^^^ s.V y))

/-- ADD Vx, Vy (R102): the carry is written last. -/
def execAddVxVy (x y : Reg) (s : State) : Result :=
  .next (s.writeWithFlag .valueThenFlag x (addByte (s.V x) (s.V y)) (addCarry (s.V x) (s.V y)))

/-- SUB Vx, Vy (R103): the write order is the parameter `subWriteOrder`. -/
def execSubVxVy (x y : Reg) (s : State) : Result :=
  .next (s.writeWithFlag s.params.subWriteOrder x (subByte (s.V x) (s.V y)) (subFlag (s.V x) (s.V y)))

/-- SUBN Vx, Vy (R104): the destination is Vx. -/
def execSubnVxVy (x y : Reg) (s : State) : Result :=
  .next (s.writeWithFlag s.params.subWriteOrder x (subByte (s.V y) (s.V x)) (subFlag (s.V y) (s.V x)))

/-- SHR Vx (R105): y is ignored and VF is not written. -/
def execShrVx (x : Reg) (s : State) : Result := .next (s.setV x (shrByte (s.V x)))

/-- SHL Vx (R106): y is ignored and VF is not written. -/
def execShlVx (x : Reg) (s : State) : Result := .next (s.setV x (shlByte (s.V x)))

/-- `RandomByte()` answers the draw at the counter, and the counter advances, so each draw is fresh
(spec/00_scope.md R15; FREE VALUE, entry 4). -/
def State.nextDraw (s : State) : State := { s with draws := s.draws + 1 }

/-- RND Vx, nn (R107): a random byte under a mask. -/
def execRndVxNn (x : Reg) (nn : Byte) (s : State) : Result :=
  .next (s.nextDraw.setV x (Config.randomByte s.draws &&& nn))

end Sys2Proof.Machine
end

