-- ==== Sys2Proof/Machine/Operands.lean ====
section
/-! DEFINITION. Operand forms: immediates, effective addresses, register ranges, key comparison and the pixel
positions of a sprite (spec/30_encoding.md R65, spec/20_memory.md R45 and R50, spec/44_display.md R116). -/

namespace Sys2Proof.Machine

/-- `zext_16(nnn)` (spec/30_encoding.md R65). -/
def zextAddr (nnn : Addr) : Word := nnn.setWidth 16

/-- The effective address `I + k`, exact (spec/20_memory.md R50). -/
def State.effAddr (s : State) (k : Nat) : Nat := s.idx.toNat + k

/-- `I, I+1, …, I+count−1`, in address order. -/
def State.effAddrs (s : State) (count : Nat) : List Nat := (List.range count).map s.effAddr

/-- All register indices in rising order. -/
def allRegs : List Reg := [0, 1, 2, 3, 4, 5, 6, 7, 8, 9, 10, 11, 12, 13, 14, 15]

/-- `k = 0 .. x`: the registers FX55 and FX65 move (R65). -/
def regsUpTo (x : Reg) : List Reg := allRegs.filter (fun k => decide (k.val ≤ x.val))

/-- `keyDown != none and keyDown == b`; none equals no register value (spec/10_state.md R30). -/
def keyMatches (key : Option Key) (b : Byte) : Bool :=
  match key with
  | none => false
  | some k => k.val == b.toNat

/-- A key's value as a register byte, 0..15. -/
def keyByte (k : Key) : Byte := BitVec.ofNat 8 k.val

/-! ## Pixels -/

/-- `FbAddr(px, py)` (spec/20_memory.md R45). -/
def fbAddr (px py : Nat) : Nat := Config.fbBase + Config.rowBytes * py + px / 8

/-- `FbBit(px)` (R45). -/
def fbBit (px : Nat) : Nat := 7 - px % 8

/-- `1 << FbBit(px)` (spec/44_display.md R117). -/
def fbMask (px : Nat) : Byte := 1#8 <<< fbBit px

/-- `Pixel(px, py)`: the framebuffer bit of a pixel (R45). -/
def State.pixel (s : State) (px py : Nat) : Bool := (s.peek (fbAddr px py)).getLsbD (fbBit px)

/-- `X0 = V[x] mod 64` (spec/44_display.md R116). -/
def State.startX (s : State) (x : Reg) : Nat := (s.V x).toNat % Config.screenW

/-- `Y0 = V[y] mod 32` (R116). -/
def State.startY (s : State) (y : Reg) : Nat := (s.V y).toNat % Config.screenH

/-- `Pos(X0, Y0, r, b)`; `none` is hidden (R116). -/
def spritePos (edge : Config.DrawEdge) (x0 y0 r b : Nat) : Option (Nat × Nat) :=
  match edge with
  | .wrap => some ((x0 + b) % Config.screenW, (y0 + r) % Config.screenH)
  | .clip =>
    if x0 + b < Config.screenW ∧ y0 + r < Config.screenH then some (x0 + b, y0 + r) else none

/-- `(sprite >> (7 - b)) & 1`: the most significant bit is the leftmost pixel (R117). -/
def spriteBit (sprite : Byte) (b : Nat) : Bool := sprite.getLsbD (7 - b)

end Sys2Proof.Machine
end

