-- ==== Sys2Proof/Machine/Display.lean ====
section
/-! DEFINITION. Display instructions (spec/44_display.md) and the exported framebuffer
(spec/60_exceptions.md R137). -/

namespace Sys2Proof.Machine

/-- The framebuffer addresses 0xF00 to 0xFFF in rising order (R115). -/
def fbAddrs : List Nat := (List.range Config.fbSize).map (Config.fbBase + ·)

/-- CLS (R115). -/
def execCls (s : State) : Result :=
  .next ((s.pokeAll (fbAddrs.map (fun a => (a, 0)))).setRedraw true)

/-- XOR one sprite pixel into the framebuffer; VF becomes 1 if a set pixel is cleared, and is never cleared
here (R117). -/
def State.plot (p : Nat × Nat) (s : State) : State :=
  let a := fbAddr p.1 p.2
  let old := s.peek a
  let t := if old &&& fbMask p.1 = 0 then s else s.setV vf 1
  t.poke a (old ^^^ fbMask p.1)

/-- Column b of sprite row r (R117). -/
def State.drawBit (x0 y0 r : Nat) (sprite : Byte) (s : State) (b : Nat) : State :=
  if spriteBit sprite b then
    match spritePos s.params.drawEdge x0 y0 r b with
    | some p => s.plot p
    | none => s
  else s

/-- Sprite row r: its byte is read when the row is processed, so it sees the rows drawn before it (R117). -/
def State.drawRow (x0 y0 : Nat) (s : State) (r : Nat) : State :=
  (List.range 8).foldl (State.drawBit x0 y0 r (s.peek (s.effAddr r))) s

/-- Sprite rows 0 to n−1 (R117). -/
def State.drawRows (x0 y0 n : Nat) (s : State) : State := (List.range n).foldl (State.drawRow x0 y0) s

/-- DRW Vx, Vy, n (R117): the start position is sampled before VF is reset. -/
def execDrw (x y : Reg) (n : Nat) (s : State) : Result :=
  .next (s.guarded (.drw x y n) (readChecks (s.effAddrs n))
    (fun t => ((t.setV vf 0).drawRows (t.startX x) (t.startY y) n).setRedraw true))

end Sys2Proof.Machine
end

