-- ==== Sys2Proof/Machine/Flow.lean ====
section
/-! DEFINITION. Control transfer (spec/41_flow.md). On entry to every meaning PC already holds `addr + 2`
(R77). A fault is a next state with the record written (entry 5). -/

namespace Sys2Proof.Machine

/-- A skip: taken, PC moves 2 further; not taken, PC stays (R87). -/
def State.skipIf (taken : Bool) (s : State) : State := if taken then s.pcForward else s

/-- RET (R88). -/
def execRet (s : State) : Result :=
  .next (s.guarded .ret (if s.sp.val = 0 then some (.stackUnderflow, 0) else none) State.popToPc)

/-- JP nnn (R89). -/
def execJp (nnn : Addr) (s : State) : Result := .next (s.setPc (zextAddr nnn))

/-- CALL nnn (R90): the pushed address is PC, the one after the CALL. -/
def execCall (nnn : Addr) (s : State) : Result :=
  .next (s.guarded (.call nnn)
    (if s.sp.val = Config.stackDepth then some (.stackOverflow, nnn.toNat) else none)
    (fun t => (t.push t.pc).setPc (zextAddr nnn)))

/-- SE Vx, nn (R91). -/
def execSeVxNn (x : Reg) (nn : Byte) (s : State) : Result := .next (s.skipIf (s.V x == nn))

/-- SNE Vx, nn (R92). -/
def execSneVxNn (x : Reg) (nn : Byte) (s : State) : Result := .next (s.skipIf (s.V x != nn))

/-- SE Vx, Vy (R93). -/
def execSeVxVy (x y : Reg) (s : State) : Result := .next (s.skipIf (s.V x == s.V y))

/-- SNE Vx, Vy (R94). -/
def execSneVxVy (x y : Reg) (s : State) : Result := .next (s.skipIf (s.V x != s.V y))

/-- JP V0, nnn (R95): the sum fits 16 bits. -/
def execJpV0Nnn (nnn : Addr) (s : State) : Result :=
  .next (s.setPc (BitVec.ofNat 16 ((s.V 0).toNat + nnn.toNat)))

end Sys2Proof.Machine
end

