-- ==== Sys2Proof/Machine/IndexMemory.lean ====
section
/-! DEFINITION. Index register and memory instructions (spec/43_index_memory.md). Every address is checked
before any state changes (spec/20_memory.md R54). I is changed only by LD I, ADD I and LD F. -/

namespace Sys2Proof.Machine

/-- LD I, nnn (R109). -/
def execLdINnn (nnn : Addr) (s : State) : Result := .next (s.setI (zextAddr nnn))

/-- ADD I, Vx (R110): modulo 2^16, no flag. -/
def execAddIVx (x : Reg) (s : State) : Result :=
  .next (s.setI (BitVec.ofNat 16 (s.idx.toNat + (s.V x).toNat)))

/-- `FONT_BASE + 5 * v` (R111). -/
def glyphAddr (v : Nat) : Word := BitVec.ofNat 16 (Config.fontBase + Config.glyphBytes * v)

/-- LD F, Vx (R111). -/
def execLdFVx (x : Reg) (s : State) : Result :=
  .next (s.guarded (.ldFVx x)
    (if 15 < (s.V x).toNat then some (.fontDigitOutOfRange, (s.V x).toNat) else none)
    (State.setI (glyphAddr (s.V x).toNat)))

/-- The hundreds, tens and ones of a byte, as bytes (R112). -/
def bcdDigits (b : Byte) : List Byte :=
  [BitVec.ofNat 8 (b.toNat / 100), BitVec.ofNat 8 (b.toNat / 10 % 10), BitVec.ofNat 8 (b.toNat % 10)]

/-- LD B, Vx (R112). -/
def execLdBVx (x : Reg) (s : State) : Result :=
  .next (s.guarded (.ldBVx x) (writeChecks (s.effAddrs 3))
    (State.pokeAll ((s.effAddrs 3).zip (bcdDigits (s.V x)))))

/-- LD [I], Vx (R113): V0 to Vx go to I, I+1, … -/
def execLdMemVx (x : Reg) (s : State) : Result :=
  .next (s.guarded (.ldMemVx x) (writeChecks (s.effAddrs (x.val + 1)))
    (State.pokeAll ((regsUpTo x).map (fun k => (s.effAddr k.val, s.V k)))))

/-- `V[k] <- MemRead(I + k, 1)` (R114). -/
def State.loadReg (s : State) (k : Reg) : State := s.setV k (s.peek (s.effAddr k.val))

/-- LD Vx, [I] (R114): V0 to Vx come from I, I+1, … -/
def execLdVxMem (x : Reg) (s : State) : Result :=
  .next (s.guarded (.ldVxMem x) (readChecks (s.effAddrs (x.val + 1)))
    (fun t => (regsUpTo x).foldl State.loadReg t))

end Sys2Proof.Machine
end

