-- ==== Sys2Proof/Machine/KeysTimers.lean ====
section
/-! DEFINITION. Key and timer instructions (spec/45_keys_timers.md). -/

namespace Sys2Proof.Machine

/-- SKP Vx (R119). -/
def execSkpVx (x : Reg) (s : State) : Result := .next (s.skipIf (keyMatches s.keyDown (s.V x)))

/-- SKNP Vx (R120). -/
def execSknpVx (x : Reg) (s : State) : Result := .next (s.skipIf (!keyMatches s.keyDown (s.V x)))

/-- LD Vx, DT (R121). -/
def execLdVxDt (x : Reg) (s : State) : Result := .next (s.setV x s.dt)

/-- LD DT, Vx (R122). -/
def execLdDtVx (x : Reg) (s : State) : Result := .next (s.setDt (s.V x))

/-- LD ST, Vx (R123). -/
def execLdStVx (x : Reg) (s : State) : Result := .next (s.setSt (s.V x))

/-- The commit phase of FX0A: the key goes to Vx and both flags are cleared (R124). -/
def State.commitKey (x : Reg) (k : Key) (s : State) : State :=
  ((s.setV x (keyByte k)).setWaiting false).setSatisfied false

/-- LD Vx, K (R124): the first phase starts the wait, the waiting phase rewinds PC, the commit phase stores
the key, or raises KeyWaitNoKey where there is none. -/
def execLdVxK (x : Reg) (s : State) : Result :=
  .next (
    if s.waitingForKey then
      if s.keyWaitSatisfied then
        match s.keyDown with
        | none => s.raiseIn (.ldVxK x) (.keyWaitNoKey, 0)
        | some k => s.commitKey x k
      else s.pcRewind
    else (s.setWaiting true).pcRewind)

end Sys2Proof.Machine
end

