-- ==== Sys2Proof/Machine/Cycle.lean ====
section
/-! DEFINITION. The cycle controller (spec/40_cycle.md), the timer tick (spec/60_exceptions.md R134), the
lifecycle operations (spec/70_reset_and_hazards.md R147, R148) and the host's other moves
(spec/60_exceptions.md R141 to R144). -/

namespace Sys2Proof.Machine

/-! ## Fetch (spec/20_memory.md R53) -/

/-- PC lies in [0x200, 0xFFE] (R53, R76). -/
def State.fetchOk (s : State) : Bool :=
  decide (Config.progBase ≤ s.pc.toNat) && decide (s.pc.toNat ≤ Config.lastFetch)

/-- The word `Fetch(PC)` returns when PC is in range, big-endian (R53). -/
def State.fetchWord (s : State) : Word := beWord (s.peek s.pc.toNat) (s.peek (s.pc.toNat + 1))

/-! ## One cycle (spec/40_cycle.md R82) -/

/-- FX0A committed a key: the controller went from AwaitingKey to Running, which nothing else does in a cycle
(R83; DEDUCED, entry 11). -/
def committed (before after : State) : Bool := before.waitingForKey && !after.waitingForKey

/-- Whether the end of a completed cycle clears `keyDown` (R81). -/
def clearsKey (before after : State) : Bool :=
  match after.params.keyClearPolicy with
  | .everyCycle => true
  | .afterWaitOnly => committed before after

/-- The end of a cycle whose handler took `before` to `after`: nothing after a fault (R80), else the key
clear (R81). -/
def endCycle (before after : State) : State :=
  if after.fault.isSome then after
  else if clearsKey before after then after.setKeyDown none
  else after

/-- The end of a cycle, from the handler's outcome. -/
def finish (before : State) : Result → Result
  | .next after => .next (endCycle before after)
  | .fault r => .fault r
  | .refused r => .refused r

/-- Fetch, advance PC, decode, execute, end of cycle, on a core that has a cycle (R76 to R81). -/
def cycleBody (s : State) : Result :=
  if s.fetchOk then
    match decodeWord s.fetchWord with
    | some i => finish s.pcForward (exec i s.pcForward)
    | none => .next (s.takeFault .illegalInstruction s.pc (some s.fetchWord) s.fetchWord.toNat)
  else .next (s.takeFault .fetchOutOfRange s.pc none s.pc.toNat)

/-- A cycle or a tick exists only on a core that has not faulted and is running (R74, R75, R134); a
fault is tested first (entry 19). It closes the time in which a program may be loaded (entry 2). -/
def ifLive (op : State → Result) (s : State) : Result :=
  if s.fault.isSome then .fault .coreFaulted
  else if s.running then op (s.setLoadOpen false)
  else .fault .halted

/-- `Cycle(s)` (R82). -/
def cycle (s : State) : Result := ifLive cycleBody s

/-! ## Timers and outputs -/

/-- Down by one, never below 0 (spec/10_state.md R27, spec/60_exceptions.md R134). -/
def countDown (t : Byte) : Byte := BitVec.ofNat 8 (t.toNat - 1)

/-- Both timers down by one (R134). -/
def State.tickTimers (s : State) : State := (s.setDt (countDown s.dt)).setSt (countDown s.st)

/-- `Tick()` (R134). -/
def tick (s : State) : Result := ifLive (fun t => .next t.tickTimers) s

/-- The output `soundOn = (ST > 0)` (spec/60_exceptions.md R136). -/
def State.soundOn (s : State) : Bool := decide (0 < s.st.toNat)

/-- The controller's two states (spec/10_state.md R36). -/
inductive Controller where
  | running
  | awaitingKey
  deriving DecidableEq, Repr

/-- The controller is in AwaitingKey exactly when `waitingForKey = 1` (R36). -/
def State.controller (s : State) : Controller := if s.waitingForKey then .awaitingKey else .running

/-! ## Lifecycle (spec/70_reset_and_hazards.md) -/

/-- `initialize()` (R147). The parameters, the draw counter and the host's schedule are no Machine State and
stay (entry 8). -/
def initMachine (s : State) : State :=
  { State.reset with params := s.params, draws := s.draws, hostMoves := s.hostMoves, rounds := s.rounds }

/-- The ROM's bytes and the addresses they go to, from 0x200 up (R148). -/
def romStores (rom : List Byte) : List Store :=
  ((List.range rom.length).map (Config.progBase + ·)).zip rom

/-- `loadProgram(rom)` (R148); `none` is a ROM that cannot be read (entry 13). It is allowed once, after `initialize` and
before the first cycle or tick (R149; entry 2). -/
def loadProgram (rom : Option (List Byte)) (s : State) : Result :=
  if s.loadOpen then
    match rom with
    | none => .refused .romUnreadable
    | some bytes =>
      if bytes.length = 0 then .refused .romEmpty
      else if Config.romMax < bytes.length then .refused .romTooLarge
      else .next ((s.pokeAll (romStores bytes)).setLoadOpen false)
  else .refused .loadNotOpen

/-! ## The host's moves (spec/60_exceptions.md R141) -/

/-- A key report: the satisfied flag and the key, only while the core waits (R143; entry 12). -/
def keyReport (key : Option Key) (s : State) : Result :=
  if s.waitingForKey then .next ((s.setKeyDown key).setSatisfied true)
  else .refused .reportWhileNotWaiting

/-- One move of the host (R141). Only a cycle and a tick need a live core (entry 16). -/
def hostMove (m : HostMove) (s : State) : Result :=
  match m with
  | .cycle => cycle s
  | .tick => tick s
  | .initMachine => .next (initMachine s)
  | .loadProgram rom => loadProgram rom s
  | .setKey key => .next (s.setKeyDown key)
  | .keyReport key => keyReport key s
  | .ackRedraw => .next (s.setRedraw false)
  | .quit => .next (s.setRunning false)

/-! ## The host's schedule (spec/60_exceptions.md R135)

The host moves in rounds without end. A round is any moves and then a cycle or a tick, in turn, so both occur
infinitely often; every interleaving in which both do is a sequence of such rounds (entry 21). -/

/-- What ends a round: a cycle and a tick in turn. -/
def roundEnd (k : Nat) : HostMove := if k % 2 = 0 then .cycle else .tick

/-- The moves of round k, where `gap k` are those before its end. -/
def roundMoves (gap : Nat → List HostMove) (k : Nat) : List HostMove := gap k ++ [roundEnd k]

/-- The move the host makes next: its first pending one, or the first of its next round. -/
def State.nextMove (s : State) : HostMove :=
  match s.hostMoves with
  | m :: _ => m
  | [] => (Config.hostGap s.rounds).headD (roundEnd s.rounds)

/-- The moves still pending once the next one is made: the rest of the list, or of the round it opens. -/
def State.movesAfter (s : State) : List HostMove :=
  match s.hostMoves with
  | _ :: rest => rest
  | [] => (roundMoves Config.hostGap s.rounds).tail

/-- The host's next round once its next move is made. -/
def State.roundAfter (s : State) : Nat :=
  match s.hostMoves with
  | _ :: _ => s.rounds
  | [] => s.rounds + 1

/-- The next move leaves the host's schedule, and nothing else changes. -/
def State.takeMove (s : State) : State := s.setSchedule s.movesAfter s.roundAfter

/-- The next operation: the host's next move (spec/40_cycle.md R73; entry 1). -/
def nextOperation (s : State) : Result := hostMove s.nextMove s.takeMove

/-- Put an instruction word where the next cycle fetches it, high byte first (R46): at PC if PC can be fetched
from, else at the program base. -/
def placeWord (w : Word) (s : State) : State :=
  let slot : Word := if s.fetchOk then s.pc else BitVec.ofNat 16 Config.progBase
  ((s.setPc slot).poke slot.toNat (highByte w)).poke (slot.toNat + 1) (lowByte w)

end Sys2Proof.Machine
end

