-- ==== Sys2Proof/Machine/Step.lean ====
section
/-! DEFINITION. One step, and the host's way to place an instruction. -/

namespace Sys2Proof.Machine

/-- One step: the host's next move (spec/40_cycle.md R73, spec/60_exceptions.md R141; entry 1). -/
def step (s : State) : Host.Outcome State Fault Refusal := nextOperation s

/-- The state with an instruction placed so that the very next step fetches and runs it: its word in memory at
PC, a cycle the host's one pending move, the core neither faulted nor halted (entry 10). `nbits` and `w` number the word's bits
from the least significant. -/
def State.withFetchWord (s : State) (nbits w : Nat) : State :=
  placeWord (BitVec.ofNat 16 (w % 2 ^ nbits)) { s with hostMoves := [.cycle], fault := none, running := true }

end Sys2Proof.Machine
end

