-- ==== Sys2Proof/Safety.lean ====
section
/-! DEFINITION. The terms in which claims are stated: a live core, the invariants of a run, what it is for a
handler to complete or to raise a fault, and the frame of an effect. -/

namespace Sys2Proof.Machine

/-! ## Running -/

/-- The core has a cycle: it has not faulted and it is running (spec/40_cycle.md R74, R75). -/
def State.Live (s : State) : Prop := s.fault = none ∧ s.running = true

/-- The next step is a cycle: the core is live and the host's next move is a cycle (entry 1). -/
def State.Ready (s : State) : Prop := s.Live ∧ s.nextMove = .cycle

/-- Cycles and ticks both occur infinitely often in an infinite sequence of the host's moves: the weak fairness of
spec/60_exceptions.md R135. -/
def FairSchedule (moves : Nat → HostMove) : Prop :=
  ∀ m ∈ [HostMove.cycle, HostMove.tick], ∀ n, ∃ k, n ≤ k ∧ moves k = m

/-- The handler of `i` raises a fault at `s`: the record holds the code, the instruction's address PC − 2 and its
word, PC goes back to that address, and nothing else changes (spec/40_cycle.md R77, R80; entries 5 and 6). -/
def Raises (i : Instr) (s : State) (code : FaultCode) (info : Nat) : Prop :=
  exec i s = .next { s with pc := s.pc - 2, fault := some ⟨code, s.pc - 2, some (encode i), info⟩ }

/-- The word of `i` is of the row with this mask and match, and no bit of it is lost in decoding
(spec/30_encoding.md R67, R68). -/
def Encodes (i : Instr) (mask mtch : Word) : Prop :=
  encode i &&& mask = mtch ∧ decodeWord (encode i) = some i

/-! ## Invariants of a run -/

/-- Memory is in canonical form and lists only writable addresses, so every address below 0x200 holds its reset
byte (spec/20_memory.md R52). -/
def State.MemOk (s : State) : Prop :=
  Memory.wf s.params s.mem = true ∧ ∀ c ∈ s.mem, Config.progBase ≤ c.1

/-- While the core awaits a key, PC holds the address of the waiting FX0A (spec/10_state.md R36,
spec/40_cycle.md R83), and no program can be loaded over it (spec/70_reset_and_hazards.md R149). -/
def State.AwaitOk (s : State) : Prop :=
  s.waitingForKey = true →
    s.loadOpen = false ∧ s.fetchOk = true ∧ ∃ x, decodeWord s.fetchWord = some (.ldVxK x)

/-! ## Frames -/

/-- The state elements other than the general registers and memory. -/
inductive Part where
  | pc | idx | dt | st | callStack | keyDown | waitingForKey | keyWaitSatisfied | redrawPending
  | running | fault | params | draws | schedule | loadOpen
  deriving DecidableEq, Repr

/-- What an effect that took `s` to `t` left alone: every register but `regs`, every byte of memory but those at
the addresses `stored`, and every other state element but `parts`. -/
structure Frame (regs : List Reg) (stored : List Nat) (parts : List Part) (s t : State) : Prop where
  regs : ∀ r, r ∉ regs → t.V r = s.V r
  mem : ∀ a, a ∉ stored → t.peek a = s.peek a
  pc : .pc ∉ parts → t.pc = s.pc
  idx : .idx ∉ parts → t.idx = s.idx
  dt : .dt ∉ parts → t.dt = s.dt
  st : .st ∉ parts → t.st = s.st
  callStack : .callStack ∉ parts → t.stack = s.stack ∧ t.sp = s.sp
  keyDown : .keyDown ∉ parts → t.keyDown = s.keyDown
  waitingForKey : .waitingForKey ∉ parts → t.waitingForKey = s.waitingForKey
  keyWaitSatisfied : .keyWaitSatisfied ∉ parts → t.keyWaitSatisfied = s.keyWaitSatisfied
  redrawPending : .redrawPending ∉ parts → t.redrawPending = s.redrawPending
  running : .running ∉ parts → t.running = s.running
  fault : .fault ∉ parts → t.fault = s.fault
  params : .params ∉ parts → t.params = s.params
  draws : .draws ∉ parts → t.draws = s.draws
  schedule : .schedule ∉ parts → t.hostMoves = s.hostMoves ∧ t.rounds = s.rounds
  loadOpen : .loadOpen ∉ parts → t.loadOpen = s.loadOpen

/-- The handler of `i` completes at `s` with its own effect: a next state that meets `post` and differs from `s`
in nothing but the registers, bytes and elements named. -/
def Completes (i : Instr) (s : State) (regs : List Reg) (stored : List Nat) (parts : List Part)
    (post : State → Prop) : Prop :=
  ∃ t, exec i s = .next t ∧ post t ∧ Frame regs stored parts s t

/-- The framebuffer bytes of the positions of an n-row sprite: what a draw may store to (spec/20_memory.md
R48). -/
def spriteBytes (edge : Config.DrawEdge) (x0 y0 n : Nat) : List Nat :=
  (List.range n).flatMap (fun r =>
    (List.range 8).filterMap (fun b => (spritePos edge x0 y0 r b).map (fun p => fbAddr p.1 p.2)))

end Sys2Proof.Machine
end

