-- ==== Sys2Proof/Certificates/Slice0/Obligations.lean ====
section
/-! DEFINITION. The statements for the provers. A statement about one handler is about `exec`, whose state on
entry has PC = addr + 2 (spec/40_cycle.md R77); `StepRunsTheDecodedInstruction` carries it to a step. A
statement quantifies over the open parameters (they stand in the state, entry 3) and over every schedule of
the host's moves (entries 1 and 21). -/

open Sys2Proof Sys2Proof.Machine

/-! ## Encoding -/

/-- Words written out from the patterns of spec/30_encoding.md R67 decode to the instructions they stand for. -/
def Obligations.WordsOfTheMapDecode : Prop :=
  ∀ p ∈ ([(0x00E0, .cls), (0x00EE, .ret), (0x1208, .jp 0x208), (0x2210, .call 0x210),
      (0x332A, .seVxNn 3 0x2A), (0x6005, .ldVxNn 0 5), (0x8014, .addVxVy 0 1), (0x812E, .shlVx 1 2),
      (0xA300, .ldINnn 0x300), (0xC30F, .rndVxNn 3 0x0F), (0xD125, .drw 1 2 5), (0xE19E, .skpVx 1),
      (0xF30A, .ldVxK 3), (0xF265, .ldVxMem 2)] : List (Nat × Instr)),
    decodeTableWord 16 p.1 = some p.2

/-- Decoding the bytes of any well-formed instruction gives it back, with every operand, and consumes exactly its
two bytes, the high byte first (spec/20_memory.md R46, spec/30_encoding.md R62). -/
def Obligations.EncodedInstructionsDecodeBack : Prop :=
  ∀ (i : Instr) (rest : List Byte), i.WellFormed = true → decode (encodeBytes i ++ rest) = .ok (i, rest)

/-- A word that decodes is the word of the instruction it decodes to, which is well formed: no bit of a legal word
is dropped, the ignored y of 8XY6 and 8XYE included (spec/30_encoding.md R63 to R66). -/
def Obligations.DecodedWordsEncodeBack : Prop :=
  ∀ (w : Word) (i : Instr), decodeWord w = some i → i.WellFormed = true ∧ encode i = w

/-- `Decode` is the table: the row that accepts a word is the one it returns, with the word's fields, and a word
that no row accepts is illegal (spec/30_encoding.md R68). No two rows accept one word. -/
def Obligations.DecodeReturnsTheMatchingRow : Prop :=
  ∀ (w : Word) (k : Nat) (r : OpRow), opRows[k]? = some r →
    (r.accepts w = true →
      decodeWord w = some (r.build w) ∧ ∀ j q, opRows[j]? = some q → q.accepts w = true → j = k) ∧
    ((∀ q ∈ opRows, q.accepts w = false) → decodeWord w = none)

/-- The illegal words, family by family (the table of spec/30_encoding.md R69). -/
def Obligations.IllegalWordsByFamily : Prop :=
  ∀ w : Word, decodeWord w = none ↔
    (fieldOpcode w = 0x0 ∧ w ≠ 0x00E0 ∧ w ≠ 0x00EE) ∨
    (fieldOpcode w = 0x5 ∧ fieldN w ≠ 0) ∨
    (fieldOpcode w = 0x8 ∧ fieldN w ∈ [0x8, 0x9, 0xA, 0xB, 0xC, 0xD, 0xF]) ∨
    (fieldOpcode w = 0x9 ∧ fieldN w ≠ 0) ∨
    (fieldOpcode w = 0xE ∧ fieldNn w ∉ [0x9E, 0xA1]) ∨
    (fieldOpcode w = 0xF ∧ fieldNn w ∉ [0x07, 0x0A, 0x15, 0x18, 0x1E, 0x29, 0x33, 0x55, 0x65])

/-! ## The cycle controller -/

/-- A step runs the decoded instruction: on a ready core whose PC can be fetched from, the step is the handler of the
instruction at PC on the state with PC advanced by 2 (the move taken from the host's schedule, entry 1, and the time
of loading closed, entry 2), and then the end of
the cycle: nothing more after a fault, else the key clear of the policy (spec/40_cycle.md R77, R79, R81, R82). -/
def Obligations.StepRunsTheDecodedInstruction : Prop :=
  ∀ (s : State) (i : Instr), s.Ready → 0x200 ≤ s.pc.toNat → s.pc.toNat ≤ 0xFFE →
    decodeWord (beWord (s.peek s.pc.toNat) (s.peek (s.pc.toNat + 1))) = some i →
    ∃ t, exec i { s.takeMove with pc := s.pc + 2, loadOpen := false } = .next t ∧
      step s = .next
        (if t.fault ≠ none then t
         else if t.params.keyClearPolicy = .everyCycle ∨
              (s.waitingForKey = true ∧ t.waitingForKey = false) then { t with keyDown := none }
         else t)

/-- A PC outside [0x200, 0xFFE] faults at the fetch and executes nothing (spec/20_memory.md R53,
spec/40_cycle.md R76); that the move is taken and loading closes is the model's choice (entries 1 and 2). -/
def Obligations.FetchOutsideProgramSpaceFaults : Prop :=
  ∀ s : State, s.Ready → s.pc.toNat < 0x200 ∨ 0xFFE < s.pc.toNat →
    step s = .next { s.takeMove with
      loadOpen := false, fault := some ⟨.fetchOutOfRange, s.pc, none, s.pc.toNat⟩ }

/-- A word of no row faults, and no no-op is executed (spec/40_cycle.md R78); that the move is taken and
loading closes is the model's choice (entries 1 and 2). -/
def Obligations.IllegalWordFaults : Prop :=
  ∀ (s : State) (w : Word), s.Ready → 0x200 ≤ s.pc.toNat → s.pc.toNat ≤ 0xFFE →
    w = beWord (s.peek s.pc.toNat) (s.peek (s.pc.toNat + 1)) → decodeWord w = none →
    step s = .next { s.takeMove with
      loadOpen := false, fault := some ⟨.illegalInstruction, s.pc, some w, w.toNat⟩ }

/-- A faulted core has no cycle and no tick, and only `initialize` leaves the fault; a halted core has neither too
(spec/40_cycle.md R74, R75, spec/60_exceptions.md R134). That the host's moves stand in a schedule is the model's
choice (entry 1). -/
def Obligations.StoppedCoreHasNoCycle : Prop :=
  (∀ s : State, s.fault ≠ none → s.nextMove = .cycle ∨ s.nextMove = .tick → step s = .fault .coreFaulted) ∧
  (∀ s t : State, s.fault ≠ none → step s = .next t → t.fault = s.fault ∨ s.nextMove = .initMachine) ∧
  (∀ s : State, s.fault = none → s.running = false → s.nextMove = .cycle ∨ s.nextMove = .tick →
    step s = .fault .halted)

/-- Every fault is precise: the state after a faulting cycle is the state before it with the record written, whose pc
is the address of the faulting instruction and whose word is the one fetched, none where the fetch itself faulted
(spec/40_cycle.md R80; the host's schedule and `loadOpen` are the model's own, entries 1 and 2). -/
def Obligations.FaultsArePrecise : Prop :=
  ∀ s t : State, s.Ready → step s = .next t → t.fault ≠ none →
    ∃ f : FaultRecord, t = { s.takeMove with loadOpen := false, fault := some f } ∧ f.pc = s.pc ∧
      f.word = (if 0x200 ≤ s.pc.toNat ∧ s.pc.toNat ≤ 0xFFE
        then some (beWord (s.peek s.pc.toNat) (s.peek (s.pc.toNat + 1))) else none)

/-- After a completed cycle `keyDown` is none under `everyCycle`; under `afterWaitOnly` it is cleared exactly by the
cycle in which FX0A committed, and kept by every other (spec/40_cycle.md R81). That a commit is read from the fall of
`waitingForKey` is the model's inference (entry 11). -/
def Obligations.CompletedCycleClearsKey : Prop :=
  ∀ s t : State, s.Ready → step s = .next t → t.fault = none →
    (s.params.keyClearPolicy = .everyCycle → t.keyDown = none) ∧
    (s.params.keyClearPolicy = .afterWaitOnly →
      t.keyDown = if s.waitingForKey = true ∧ t.waitingForKey = false then none else s.keyDown)

/-! ## Control transfer (spec/41_flow.md) -/

/-- RET pops the return address, or faults on an empty stack (R88). -/
def Obligations.RetPopsOrUnderflows : Prop :=
  Encodes .ret 0xFFFF 0x00EE ∧
  ∀ s : State,
    if s.sp.val = 0 then Raises .ret s .stackUnderflow 0
    else Completes .ret s [] [] [.pc, .callStack] fun t =>
      t.sp.val = s.sp.val - 1 ∧ t.pc = s.stackAt (s.sp.val - 1) ∧ t.stack = s.stack

/-- CALL pushes the address after it and jumps, or faults on a full stack (R90). -/
def Obligations.CallPushesOrOverflows : Prop :=
  ∀ (nnn : Addr) (s : State), Encodes (.call nnn) 0xF000 0x2000 ∧
    if s.sp.val = 16 then Raises (.call nnn) s .stackOverflow nnn.toNat
    else Completes (.call nnn) s [] [] [.pc, .callStack] fun t =>
      t.sp.val = s.sp.val + 1 ∧ t.stackAt s.sp.val = s.pc ∧
      (∀ k, k ≠ s.sp.val → t.stackAt k = s.stackAt k) ∧ t.pc.toNat = nnn.toNat

/-- A return undoes its call: with the stack and depth a call left, RET continues after the call at the depth before
it (spec/41_flow.md R88, R90; the source's LIFO scenario S9 of spec/95_test_vectors.md). -/
def Obligations.ReturnUndoesCall : Prop :=
  ∀ (nnn : Addr) (s t u : State), s.sp.val < 16 → exec (.call nnn) s = .next t →
    u.sp = t.sp → u.stack = t.stack →
    ∃ w, exec .ret u = .next w ∧ w.pc = s.pc ∧ w.sp = s.sp

/-- JP nnn and JP V0, nnn set PC, the sum of the second not truncated, with no check of the target (R89, R95). -/
def Obligations.JumpsSetPc : Prop :=
  ∀ (nnn : Addr) (s : State),
    (Encodes (.jp nnn) 0xF000 0x1000 ∧
      Completes (.jp nnn) s [] [] [.pc] fun t => t.pc.toNat = nnn.toNat) ∧
    (Encodes (.jpV0Nnn nnn) 0xF000 0xB000 ∧
      Completes (.jpV0Nnn nnn) s [] [] [.pc] fun t => t.pc.toNat = (s.V 0).toNat + nnn.toNat)

/-- The four skips move PC by 2 further exactly when their comparison holds (R91, R92, R93, R94). -/
def Obligations.SkipsFollowTheirComparison : Prop :=
  ∀ (x y : Reg) (nn : Byte) (s : State),
    (Encodes (.seVxNn x nn) 0xF000 0x3000 ∧
      Completes (.seVxNn x nn) s [] [] [.pc] fun t =>
        t.pc = if s.V x = nn then s.pc + 2 else s.pc) ∧
    (Encodes (.sneVxNn x nn) 0xF000 0x4000 ∧
      Completes (.sneVxNn x nn) s [] [] [.pc] fun t =>
        t.pc = if s.V x ≠ nn then s.pc + 2 else s.pc) ∧
    (Encodes (.seVxVy x y) 0xF00F 0x5000 ∧
      Completes (.seVxVy x y) s [] [] [.pc] fun t =>
        t.pc = if s.V x = s.V y then s.pc + 2 else s.pc) ∧
    (Encodes (.sneVxVy x y) 0xF00F 0x9000 ∧
      Completes (.sneVxVy x y) s [] [] [.pc] fun t =>
        t.pc = if s.V x ≠ s.V y then s.pc + 2 else s.pc)

/-! ## Register instructions (spec/42_alu.md) -/

/-- The two register loads (R96, R97). -/
def Obligations.LoadsWriteVx : Prop :=
  ∀ (x y : Reg) (nn : Byte) (s : State),
    (Encodes (.ldVxNn x nn) 0xF000 0x6000 ∧
      Completes (.ldVxNn x nn) s [x] [] [] fun t => t.V x = nn) ∧
    (Encodes (.ldVxVy x y) 0xF00F 0x8000 ∧
      Completes (.ldVxVy x y) s [x] [] [] fun t => t.V x = s.V y)

/-- ADD Vx, nn wraps and writes no flag (R98). -/
def Obligations.AddImmediateWraps : Prop :=
  ∀ (x : Reg) (nn : Byte) (s : State), Encodes (.addVxNn x nn) 0xF000 0x7000 ∧
    Completes (.addVxNn x nn) s [x] [] [] fun t => (t.V x).toNat = ((s.V x).toNat + nn.toNat) % 256

/-- OR, AND and XOR combine bit by bit and leave VF alone (R99, R100, R101). -/
def Obligations.LogicCombinesBits : Prop :=
  ∀ (x y : Reg) (s : State),
    (Encodes (.orVxVy x y) 0xF00F 0x8001 ∧ Completes (.orVxVy x y) s [x] [] [] fun t =>
      ∀ k, (t.V x).getLsbD k = ((s.V x).getLsbD k || (s.V y).getLsbD k)) ∧
    (Encodes (.andVxVy x y) 0xF00F 0x8002 ∧ Completes (.andVxVy x y) s [x] [] [] fun t =>
      ∀ k, (t.V x).getLsbD k = ((s.V x).getLsbD k && (s.V y).getLsbD k)) ∧
    (Encodes (.xorVxVy x y) 0xF00F 0x8003 ∧ Completes (.xorVxVy x y) s [x] [] [] fun t =>
      ∀ k, (t.V x).getLsbD k = ((s.V x).getLsbD k ^^ (s.V y).getLsbD k))

/-- ADD Vx, Vy: the sum modulo 256, and VF is the carry, also when x = F, since the flag is written last; the operands
are the values before the instruction (R102). -/
def Obligations.AddSetsCarry : Prop :=
  ∀ (x y : Reg) (s : State), Encodes (.addVxVy x y) 0xF00F 0x8004 ∧
    Completes (.addVxVy x y) s [x, vf] [] [] fun t =>
      (x ≠ vf → (t.V x).toNat = ((s.V x).toNat + (s.V y).toNat) % 256) ∧
      t.V vf = if 255 < (s.V x).toNat + (s.V y).toNat then 1 else 0

/-- SUB and SUBN: the difference modulo 256 into Vx, and VF is the strict comparison; when x = F the parameter
`subWriteOrder` says which of the two VF ends as (R103, R104). -/
def Obligations.SubtractsSetNoBorrow : Prop :=
  ∀ (x y : Reg) (s : State),
    (Encodes (.subVxVy x y) 0xF00F 0x8005 ∧ Completes (.subVxVy x y) s [x, vf] [] [] fun t =>
      (x ≠ vf ∨ s.params.subWriteOrder = .flagThenValue →
        (t.V x).toNat = (256 + (s.V x).toNat - (s.V y).toNat) % 256) ∧
      (x ≠ vf ∨ s.params.subWriteOrder = .valueThenFlag →
        t.V vf = if (s.V y).toNat < (s.V x).toNat then 1 else 0)) ∧
    (Encodes (.subnVxVy x y) 0xF00F 0x8007 ∧ Completes (.subnVxVy x y) s [x, vf] [] [] fun t =>
      (x ≠ vf ∨ s.params.subWriteOrder = .flagThenValue →
        (t.V x).toNat = (256 + (s.V y).toNat - (s.V x).toNat) % 256) ∧
      (x ≠ vf ∨ s.params.subWriteOrder = .valueThenFlag →
        t.V vf = if (s.V x).toNat < (s.V y).toNat then 1 else 0))

/-- SHR and SHL shift Vx by one, whatever y is, and write no flag (R105, R106). -/
def Obligations.ShiftsIgnoreYAndFlag : Prop :=
  ∀ (x y : Reg) (s : State),
    (Encodes (.shrVx x y) 0xF00F 0x8006 ∧ Completes (.shrVx x y) s [x] [] [] fun t =>
      (t.V x).toNat = (s.V x).toNat / 2) ∧
    (Encodes (.shlVx x y) 0xF00F 0x800E ∧ Completes (.shlVx x y) s [x] [] [] fun t =>
      (t.V x).toNat = (s.V x).toNat * 2 % 256)

/-- RND: the draw under the mask, so every bit outside nn is 0 whatever the draw, and the next execution takes the next
draw (R107; the draw is the free value of entry 4, and nothing here rests on what it is). -/
def Obligations.RandomByteIsMasked : Prop :=
  ∀ (x : Reg) (nn : Byte) (s : State), Encodes (.rndVxNn x nn) 0xF000 0xC000 ∧
    Completes (.rndVxNn x nn) s [x] [] [.draws] fun t =>
      (∀ k, (t.V x).getLsbD k = ((Config.randomByte s.draws).getLsbD k && nn.getLsbD k)) ∧
      (∀ k, nn.getLsbD k = false → (t.V x).getLsbD k = false) ∧ t.draws = s.draws + 1

/-! ## Index and memory (spec/43_index_memory.md) -/

/-- LD I and ADD I, the second modulo 2^16 and with no flag (R109, R110). -/
def Obligations.IndexIsLoadedAndAdded : Prop :=
  ∀ (x : Reg) (nnn : Addr) (s : State),
    (Encodes (.ldINnn nnn) 0xF000 0xA000 ∧
      Completes (.ldINnn nnn) s [] [] [.idx] fun t => t.idx.toNat = nnn.toNat) ∧
    (Encodes (.addIVx x) 0xF0FF 0xF01E ∧ Completes (.addIVx x) s [] [] [.idx] fun t =>
      t.idx.toNat = (s.idx.toNat + (s.V x).toNat) % 2 ^ 16)

/-- LD F points I at a glyph, or faults on a value that is no hex digit (R111). -/
def Obligations.FontAddressOrFault : Prop :=
  ∀ (x : Reg) (s : State), Encodes (.ldFVx x) 0xF0FF 0xF029 ∧
    if 15 < (s.V x).toNat then Raises (.ldFVx x) s .fontDigitOutOfRange (s.V x).toNat
    else Completes (.ldFVx x) s [] [] [.idx] fun t => t.idx.toNat = 5 * (s.V x).toNat

/-- LD B stores the three digits at I, I+1, I+2, or reports the first address that fails and writes nothing (R112). -/
def Obligations.BcdStoresDigitsOrFaults : Prop :=
  ∀ (x : Reg) (s : State), Encodes (.ldBVx x) 0xF0FF 0xF033 ∧
    if 0x1000 ≤ s.idx.toNat then Raises (.ldBVx x) s .memoryOutOfRange s.idx.toNat
    else if s.idx.toNat < 0x200 then Raises (.ldBVx x) s .protectedWrite s.idx.toNat
    else if 0x1000 ≤ s.idx.toNat + 2 then Raises (.ldBVx x) s .memoryOutOfRange 0x1000
    else Completes (.ldBVx x) s [] [s.idx.toNat, s.idx.toNat + 1, s.idx.toNat + 2] [] fun t =>
      (t.peek s.idx.toNat).toNat = (s.V x).toNat / 100 ∧
      (t.peek (s.idx.toNat + 1)).toNat = (s.V x).toNat / 10 % 10 ∧
      (t.peek (s.idx.toNat + 2)).toNat = (s.V x).toNat % 10

/-- LD [I] stores V0 to Vx at I to I+x, or reports the first address that fails and writes nothing; I is unchanged
(R113). -/
def Obligations.RegistersAreStoredOrFault : Prop :=
  ∀ (x : Reg) (s : State), Encodes (.ldMemVx x) 0xF0FF 0xF055 ∧
    if 0x1000 ≤ s.idx.toNat then Raises (.ldMemVx x) s .memoryOutOfRange s.idx.toNat
    else if s.idx.toNat < 0x200 then Raises (.ldMemVx x) s .protectedWrite s.idx.toNat
    else if 0x1000 ≤ s.idx.toNat + x.val then Raises (.ldMemVx x) s .memoryOutOfRange 0x1000
    else Completes (.ldMemVx x) s [] (s.effAddrs (x.val + 1)) [] fun t =>
      ∀ k : Reg, k.val ≤ x.val → t.peek (s.idx.toNat + k.val) = s.V k

/-- LD Vx, [I] loads V0 to Vx from I to I+x, below 0x200 too, or reports the first address that does not exist and
loads nothing; I is unchanged (R114). -/
def Obligations.RegistersAreLoadedOrFault : Prop :=
  ∀ (x : Reg) (s : State), Encodes (.ldVxMem x) 0xF0FF 0xF065 ∧
    if 0x1000 ≤ s.idx.toNat then Raises (.ldVxMem x) s .memoryOutOfRange s.idx.toNat
    else if 0x1000 ≤ s.idx.toNat + x.val then Raises (.ldVxMem x) s .memoryOutOfRange 0x1000
    else Completes (.ldVxMem x) s (regsUpTo x) [] [] fun t =>
      (∀ k : Reg, k.val ≤ x.val → t.V k = s.peek (s.idx.toNat + k.val)) ∧
      ∀ k : Reg, x.val < k.val → t.V k = s.V k

/-- A word that LD [I] stored is fetched as stored, with no delay: at PC = I + k the fetch reads Vk and then V(k+1)
(spec/20_memory.md R59; spec/43_index_memory.md R113). -/
def Obligations.StoredCodeIsFetched : Prop :=
  ∀ (x k : Reg) (s t : State), 0x200 ≤ s.idx.toNat → s.idx.toNat + x.val < 0x1000 → k.val < x.val →
    exec (.ldMemVx x) s = .next t →
    (t.setPc (BitVec.ofNat 16 (s.idx.toNat + k.val))).fetchWord =
      beWord (s.V k) (s.V (Fin.ofNat 16 (k.val + 1)))

/-! ## Display (spec/44_display.md) -/

/-- CLS zeroes the framebuffer, and nothing else of memory, and asks for a redraw (R115). -/
def Obligations.ClearScreenZeroesFramebuffer : Prop :=
  Encodes .cls 0xFFFF 0x00E0 ∧
  ∀ s : State, Completes .cls s [] fbAddrs [.redrawPending] fun t =>
    (∀ a, 0xF00 ≤ a → a ≤ 0xFFF → t.peek a = 0) ∧ (∀ a, a < 0xF00 ∨ 0xFFF < a → t.peek a = s.peek a) ∧
    t.redrawPending = true

/-- DRW: faults on the first sprite address that does not exist, with nothing drawn; else it flips exactly the pixels at
the visible positions of the sprite's set bits, where row r is read as it is after rows 0 to r−1 were drawn; VF is 1
exactly when a set pixel was cleared, else 0; the coordinates are those before VF is written; a redraw is asked for
(R117, with the positions of R116). -/
def Obligations.DrawFlipsSpritePixels : Prop :=
  ∀ (x y : Reg) (n : Nat) (s : State), n < 16 → Encodes (.drw x y n) 0xF000 0xD000 ∧
    if 0 < n ∧ 0x1000 ≤ s.idx.toNat then Raises (.drw x y n) s .memoryOutOfRange s.idx.toNat
    else if 0 < n ∧ 0x1000 < s.idx.toNat + n then Raises (.drw x y n) s .memoryOutOfRange 0x1000
    else Completes (.drw x y n) s [vf] (spriteBytes s.params.drawEdge (s.startX x) (s.startY y) n)
      [.redrawPending] fun t =>
        t.redrawPending = true ∧
        (∀ px < 64, ∀ py < 32, t.pixel px py ≠ s.pixel px py ↔
          ∃ r < n, ∃ b < 8, ∃ u, exec (.drw x y r) s = .next u ∧
            spriteBit (u.peek (s.idx.toNat + r)) b = true ∧
            spritePos s.params.drawEdge ((s.V x).toNat % 64) ((s.V y).toNat % 32) r b = some (px, py)) ∧
        ((∃ px < 64, ∃ py < 32, s.pixel px py = true ∧ t.pixel px py = false) → t.V vf = 1) ∧
        ((∀ px < 64, ∀ py < 32, s.pixel px py = true → t.pixel px py = true) → t.V vf = 0)

/-- The laws of drawing (R118, which the spec derives from R117). (a) Two draws of one sprite outside the framebuffer at one position restore every byte,
and the second sets VF exactly when some visible set bit of the sprite lands on a pixel that was clear before the
first. (b) VF is 1 exactly when some pixel went from 1 to 0, and a draw onto a clear region gives 0. -/
def Obligations.DoubleDrawRestores : Prop :=
  (∀ (x y x' y' : Reg) (n : Nat) (s t u w : State), n < 16 →
    (∀ r < n, s.idx.toNat + r < 0xF00) →
    exec (.drw x y n) s = .next t →
    u.idx = s.idx → u.params = s.params → (∀ a, u.peek a = t.peek a) →
    u.startX x' = s.startX x → u.startY y' = s.startY y →
    exec (.drw x' y' n) u = .next w →
      (∀ a, w.peek a = s.peek a) ∧
      (w.V vf = 1 ↔ ∃ r < n, ∃ b < 8, ∃ p, spriteBit (s.peek (s.idx.toNat + r)) b = true ∧
        spritePos s.params.drawEdge (s.startX x) (s.startY y) r b = some p ∧
        s.pixel p.1 p.2 = false)) ∧
  (∀ (x y : Reg) (n : Nat) (s t : State), n < 16 → (∀ r < n, s.idx.toNat + r < 0x1000) →
    exec (.drw x y n) s = .next t →
      (t.V vf = 1 ↔ ∃ px < 64, ∃ py < 32, s.pixel px py = true ∧ t.pixel px py = false) ∧
      ((∀ r < n, ∀ b < 8, ∀ p, spritePos s.params.drawEdge (s.startX x) (s.startY y) r b = some p →
        s.pixel p.1 p.2 = false) → t.V vf = 0))

/-! ## Keys and timers (spec/45_keys_timers.md, spec/60_exceptions.md) -/

/-- SKP and SKNP compare Vx with the key that is down; none equals no value (R119, R120). -/
def Obligations.KeySkipsCompareKeyDown : Prop :=
  ∀ (x : Reg) (s : State),
    (Encodes (.skpVx x) 0xF0FF 0xE09E ∧ Completes (.skpVx x) s [] [] [.pc] fun t =>
      t.pc = if ∃ k, s.keyDown = some k ∧ k.val = (s.V x).toNat then s.pc + 2 else s.pc) ∧
    (Encodes (.sknpVx x) 0xF0FF 0xE0A1 ∧ Completes (.sknpVx x) s [] [] [.pc] fun t =>
      t.pc = if s.keyDown = none ∨ ∃ k, s.keyDown = some k ∧ k.val ≠ (s.V x).toNat
        then s.pc + 2 else s.pc)

/-- The delay timer is read and written, the sound timer written (R121, R122, R123). -/
def Obligations.TimersAreReadAndWritten : Prop :=
  ∀ (x : Reg) (s : State),
    (Encodes (.ldVxDt x) 0xF0FF 0xF007 ∧ Completes (.ldVxDt x) s [x] [] [] fun t => t.V x = s.dt) ∧
    (Encodes (.ldDtVx x) 0xF0FF 0xF015 ∧ Completes (.ldDtVx x) s [] [] [.dt] fun t => t.dt = s.V x) ∧
    (Encodes (.ldStVx x) 0xF0FF 0xF018 ∧ Completes (.ldStVx x) s [] [] [.st] fun t =>
      t.st = s.V x ∧ (t.soundOn = true ↔ s.V x ≠ 0))

/-- LD Vx, K: the first phase starts the wait whatever the key state is, the waiting phase only rewinds PC, and the
commit phase stores the key once and ends the wait, or faults where there is no key (R124). -/
def Obligations.KeyWaitHasThreePhases : Prop :=
  ∀ (x : Reg) (s : State), Encodes (.ldVxK x) 0xF0FF 0xF00A ∧
    if s.waitingForKey = false then
      Completes (.ldVxK x) s [] [] [.pc, .waitingForKey] fun t =>
        t.waitingForKey = true ∧ t.pc = s.pc - 2
    else if s.keyWaitSatisfied = false then
      Completes (.ldVxK x) s [] [] [.pc] fun t => t.pc = s.pc - 2
    else if s.keyDown = none then Raises (.ldVxK x) s .keyWaitNoKey 0
    else Completes (.ldVxK x) s [x] [] [.waitingForKey, .keyWaitSatisfied] fun t =>
      (∃ k, s.keyDown = some k ∧ (t.V x).toNat = k.val) ∧
      t.waitingForKey = false ∧ t.keyWaitSatisfied = false

/-- A wait is ended by nothing but a key report or `initialize`: a waiting core that has had no report still waits after
any step, unless that step is `initialize`, and only a report satisfies the wait (spec/40_cycle.md R84,
spec/60_exceptions.md R143). The schedule of host moves is the model's choice (entry 1). -/
def Obligations.OnlyAKeyReportEndsAWait : Prop :=
  ∀ s t : State, s.waitingForKey = true → s.keyWaitSatisfied = false → step s = .next t →
    (t.waitingForKey = true ∨ s.nextMove = .initMachine) ∧
    (t.keyWaitSatisfied = true → ∃ k, s.nextMove = .keyReport k)

/-- A tick counts both timers down to 0 at the least and changes nothing else; it exists on a live core only
(spec/60_exceptions.md R134; the move leaves the host's schedule and closes the time of loading, entries 1 and 2). -/
def Obligations.TickCountsBothTimersDown : Prop :=
  ∀ s : State, s.nextMove = .tick →
    (s.Live → ∃ t, step s = .next t ∧
      t.dt.toNat = (if 0 < s.dt.toNat then s.dt.toNat - 1 else 0) ∧
      t.st.toNat = (if 0 < s.st.toNat then s.st.toNat - 1 else 0) ∧
      t.loadOpen = false ∧ Frame [] [] [.dt, .st, .loadOpen] s.takeMove t) ∧
    (¬ s.Live → ∀ t, step s ≠ .next t)

/-! ## The host's schedule (spec/60_exceptions.md R135, R141) -/

/-- The host's moves are made one by one, each step one of them: first those pending, in order, then round after round
without end, each the moves of its gap (the free value of entry 21) and then its cycle or tick; taking a move changes
nothing but the schedule, and no step changes the schedule otherwise (spec/40_cycle.md R73, spec/60_exceptions.md R135,
R141; the schedule is the model's choice, entries 1 and 21). -/
def Obligations.HostMovesAreTakenInOrder : Prop :=
  (∀ (s : State) (m : HostMove) (rest : List HostMove), s.hostMoves = m :: rest →
    s.nextMove = m ∧ s.takeMove.hostMoves = rest ∧ s.takeMove.rounds = s.rounds) ∧
  (∀ s : State, s.hostMoves = [] →
    s.nextMove :: s.takeMove.hostMoves = Config.hostGap s.rounds ++ [roundEnd s.rounds] ∧
    s.takeMove.rounds = s.rounds + 1) ∧
  (∀ s : State, Frame [] [] [.schedule] s s.takeMove) ∧
  (∀ s t : State, step s = .next t →
    t.hostMoves = s.takeMove.hostMoves ∧ t.rounds = s.takeMove.rounds)

/-- Every run is fair: from every state a cycle is the host's next move after finitely many steps, and so is a tick,
unless the run stops before it (spec/60_exceptions.md R135). As it holds of every state, in a run that never stops
both occur infinitely often. The bound is what is pending and the next two rounds. -/
def Obligations.CyclesAndTicksRecur : Prop :=
  ∀ (s : State) (m : HostMove), m = .cycle ∨ m = .tick →
    ∃ n, n ≤ s.hostMoves.length + (Config.hostGap s.rounds).length + (Config.hostGap (s.rounds + 1)).length + 1 ∧
      ((∀ t, Host.Core.run Sys2Proof.core n s ≠ .next t) ∨
        ∃ t, Host.Core.run Sys2Proof.core n s = .next t ∧ t.nextMove = m)

/-- No fair interleaving is left out: every infinite sequence of the host's moves in which cycles and ticks both occur
infinitely often is, for some gaps, the rounds one after the other (spec/60_exceptions.md R135). The gaps a run follows
are the free value of entry 21, so a statement about the model's runs holds for every such sequence. -/
def Obligations.FairSchedulesAreRounds : Prop :=
  ∀ moves : Nat → HostMove, FairSchedule moves →
    ∃ gap : Nat → List HostMove, ∀ n, ∃ m, n ≤ m ∧
      (List.range n).flatMap (roundMoves gap) = (List.range m).map moves

/-! ## Whole-machine rules -/

/-- VF is written by ADD, SUB, SUBN and DRW, and by no other instruction but through its own destination field
(spec/10_state.md R21). -/
def Obligations.OnlyFourInstructionsWriteVfImplicitly : Prop :=
  ∀ (i : Instr) (s t : State), exec i s = .next t → t.V vf ≠ s.V vf →
    (∃ x y, i = .addVxVy x y ∨ i = .subVxVy x y ∨ i = .subnVxVy x y) ∨ (∃ x y n, i = .drw x y n) ∨
    (∃ nn, i = .ldVxNn vf nn ∨ i = .addVxNn vf nn ∨ i = .rndVxNn vf nn) ∨
    (∃ y, i = .ldVxVy vf y ∨ i = .orVxVy vf y ∨ i = .andVxVy vf y ∨ i = .xorVxVy vf y ∨
      i = .shrVx vf y ∨ i = .shlVx vf y) ∨
    i = .ldVxDt vf ∨ i = .ldVxK vf ∨ i = .ldVxMem vf

/-- Which instruction writes which state element (spec/10_state.md R24, R26 to R34, spec/60_exceptions.md R126): PC by
control transfer, FX0A and a raised fault; I by three instructions; DT, ST, the call stack, the wait bits,
`redrawPending` and the draw counter by those named; the fault record by the seven that can fault; `keyDown`,
`running`, the parameters and the host's schedule by none. -/
def Obligations.StateElementsHaveTheirWriters : Prop :=
  ∀ (i : Instr) (s t : State), exec i s = .next t →
    (t.pc ≠ s.pc → i = .ret ∨ (∃ a, i = .jp a ∨ i = .call a ∨ i = .jpV0Nnn a) ∨
      (∃ x nn, i = .seVxNn x nn ∨ i = .sneVxNn x nn) ∨ (∃ x y, i = .seVxVy x y ∨ i = .sneVxVy x y) ∨
      (∃ x, i = .skpVx x ∨ i = .sknpVx x ∨ i = .ldVxK x) ∨
      ∃ f, t.fault = some f ∧ f.pc = t.pc ∧ t.pc = s.pc - 2) ∧
    (t.idx ≠ s.idx → (∃ a, i = .ldINnn a) ∨ ∃ x, i = .addIVx x ∨ i = .ldFVx x) ∧
    (t.dt ≠ s.dt → ∃ x, i = .ldDtVx x) ∧
    (t.st ≠ s.st → ∃ x, i = .ldStVx x) ∧
    (t.stack ≠ s.stack → ∃ a, i = .call a) ∧
    (t.sp ≠ s.sp → i = .ret ∨ ∃ a, i = .call a) ∧
    (t.waitingForKey ≠ s.waitingForKey ∨ t.keyWaitSatisfied ≠ s.keyWaitSatisfied → ∃ x, i = .ldVxK x) ∧
    (t.redrawPending ≠ s.redrawPending → i = .cls ∨ ∃ x y n, i = .drw x y n) ∧
    (t.draws ≠ s.draws → ∃ x nn, i = .rndVxNn x nn) ∧
    (t.fault ≠ s.fault → i = .ret ∨ (∃ a, i = .call a) ∨ (∃ x y n, i = .drw x y n) ∨
      ∃ x, i = .ldFVx x ∨ i = .ldBVx x ∨ i = .ldMemVx x ∨ i = .ldVxMem x ∨ i = .ldVxK x) ∧
    t.keyDown = s.keyDown ∧ t.running = s.running ∧ t.params = s.params ∧ t.hostMoves = s.hostMoves ∧
    t.rounds = s.rounds ∧ t.loadOpen = s.loadOpen

/-- Only CLS, DRW, LD B and LD [I] change memory, and only at 0x200 to 0xFFF, the first two in the framebuffer only
(spec/20_memory.md R48, R52). -/
def Obligations.OnlyFourInstructionsStore : Prop :=
  ∀ (i : Instr) (s t : State) (a : Nat), exec i s = .next t → t.peek a ≠ s.peek a →
    0x200 ≤ a ∧ a < 0x1000 ∧
    ((∃ x, i = .ldBVx x ∨ i = .ldMemVx x) ∨
      0xF00 ≤ a ∧ (i = .cls ∨ ∃ x y n, i = .drw x y n))

/-- Every step keeps memory in canonical form with only writable addresses listed (spec/20_memory.md R43, R52,
spec/70_reset_and_hazards.md R148). -/
def Obligations.StepKeepsMemoryCanonical : Prop :=
  ∀ s t : State, s.MemOk → step s = .next t → t.MemOk

/-- Every step keeps PC at the waiting FX0A while the core awaits a key (spec/10_state.md R36, spec/40_cycle.md R83).
That loading is closed then is the model's choice (entry 2). -/
def Obligations.StepKeepsPcAtTheWaitingInstruction : Prop :=
  ∀ s t : State, s.AwaitOk → step s = .next t → t.AwaitOk

/-- The font holds in every reachable state: whatever the parameters are, and whatever the host does, a run from the state
after `initialize` never changes the 80 bytes at 0x000 (spec/70_reset_and_hazards.md R150). Parameters and
schedule held in the state are the model's choice (entries 1, 3 and 21). -/
def Obligations.FontHoldsInEveryReachableState : Prop :=
  ∀ (p : Config.Params) (moves : List HostMove) (round k : Nat) (t : State),
    Host.Core.run Sys2Proof.core k { State.reset with params := p, hostMoves := moves, rounds := round } = .next t →
    t.params = p ∧ ∀ a (h : a < 80), t.peek a = p.fontData[a]

/-- No step changes the open parameters (spec/10_state.md R42; entry 3). -/
def Obligations.StepKeepsParameters : Prop :=
  ∀ s t : State, step s = .next t → t.params = s.params

/-! ## Reset and the host (spec/10_state.md R40, spec/70_reset_and_hazards.md, spec/60_exceptions.md) -/

/-- The state after `initialize` (R40), with the default parameters: registers, timers, stack and flags zero, PC at 0x200,
no key, running, no fault, the font at 0x000 and zero elsewhere in memory. -/
def Obligations.ResetStateIsAsSpecified : Prop :=
  (∀ r, State.reset.V r = 0) ∧ State.reset.idx = 0 ∧ State.reset.pc = 0x200 ∧ State.reset.dt = 0 ∧
  State.reset.st = 0 ∧ State.reset.sp.val = 0 ∧ (∀ k < 16, State.reset.stackAt k = 0) ∧
  (∀ a (h : a < 80), State.reset.peek a = Config.defaultFont[a]) ∧
  (∀ a, 80 ≤ a → a < 0x1000 → State.reset.peek a = 0) ∧
  State.reset.keyDown = none ∧ State.reset.waitingForKey = false ∧ State.reset.keyWaitSatisfied = false ∧
  State.reset.redrawPending = false ∧ State.reset.running = true ∧ State.reset.fault = none

/-- The invariants hold after reset, whatever the parameters and the host's schedule are. -/
def Obligations.ResetMeetsTheInvariants : Prop :=
  ∀ (p : Config.Params) (moves : List HostMove) (round : Nat),
    State.MemOk { State.reset with params := p, hostMoves := moves, rounds := round } ∧
    State.AwaitOk { State.reset with params := p, hostMoves := moves, rounds := round }

/-- `initialize` resets the whole Machine State from any state, a faulted or halted one too (R147). The parameters, the
draw counter and the host's schedule after the move stay, which is the model's choice (entry 8). -/
def Obligations.InitializeResetsEveryState : Prop :=
  ∀ s : State, s.nextMove = .initMachine →
    ∃ t, step s = .next t ∧
      (∀ r, t.V r = 0) ∧ t.idx = 0 ∧ t.dt = 0 ∧ t.st = 0 ∧ t.sp.val = 0 ∧ (∀ k < 16, t.stackAt k = 0) ∧
      (∀ a (h : a < 80), t.peek a = s.params.fontData[a]) ∧ (∀ a, 80 ≤ a → t.peek a = 0) ∧
      t.pc = 0x200 ∧ t.keyDown = none ∧ t.waitingForKey = false ∧ t.keyWaitSatisfied = false ∧
      t.redrawPending = false ∧ t.running = true ∧ t.fault = none ∧
      t.params = s.params ∧ t.draws = s.draws ∧ t.hostMoves = s.takeMove.hostMoves ∧
      t.rounds = s.takeMove.rounds ∧ t.loadOpen = true

/-- `loadProgram` copies the ROM verbatim to 0x200 and changes nothing else, or fails with its named error and no next
state (R148); the host's schedule and `loadOpen` are the model's own (entries 1 and 2). -/
def Obligations.LoadProgramCopiesTheRom : Prop :=
  ∀ (s : State) (rom : Option (List Byte)), s.nextMove = .loadProgram rom → s.loadOpen = true →
    match rom with
    | none => step s = .refused .romUnreadable
    | some bytes =>
      if bytes.length = 0 then step s = .refused .romEmpty
      else if 3584 < bytes.length then step s = .refused .romTooLarge
      else ∃ t, step s = .next t ∧ (∀ k (h : k < bytes.length), t.peek (0x200 + k) = bytes[k]) ∧
        (∀ a, a < 0x200 ∨ 0x200 + bytes.length ≤ a → t.peek a = s.peek a) ∧
        t.loadOpen = false ∧
        Frame [] ((List.range bytes.length).map (0x200 + ·)) [.loadOpen] s.takeMove t

/-- A program is loaded at most once after each `initialize`, before any cycle or tick: a cycle, a tick and a load close
the time of loading, only `initialize` opens it again, and a load outside it is refused
(spec/70_reset_and_hazards.md R149, spec/60_exceptions.md R141; the bit is the model's, entry 2). -/
def Obligations.LoadingIsOpenOnlyAfterInitialize : Prop :=
  (∀ (s : State) (rom : Option (List Byte)),
    s.nextMove = .loadProgram rom → s.loadOpen = false → step s = .refused .loadNotOpen) ∧
  (∀ s t : State, step s = .next t → t.loadOpen = true →
    s.nextMove = .initMachine ∨
    (s.loadOpen = true ∧ s.nextMove ≠ .cycle ∧ s.nextMove ≠ .tick ∧ ∀ rom, s.nextMove ≠ .loadProgram rom))

/-- The other moves of the host change what they name and nothing else, on any core, and a key report exists only while the
core waits (spec/60_exceptions.md R142, R143, R144; each leaves the host's schedule, entry 1). -/
def Obligations.HostMovesWriteOnlyTheirState : Prop :=
  ∀ s : State,
    (∀ k, s.nextMove = .setKey k → ∃ t, step s = .next t ∧ t.keyDown = k ∧ Frame [] [] [.keyDown] s.takeMove t) ∧
    (∀ k, s.nextMove = .keyReport k → s.waitingForKey = true → ∃ t, step s = .next t ∧ t.keyDown = k ∧
      t.keyWaitSatisfied = true ∧ Frame [] [] [.keyDown, .keyWaitSatisfied] s.takeMove t) ∧
    (∀ k, s.nextMove = .keyReport k → s.waitingForKey = false → step s = .refused .reportWhileNotWaiting) ∧
    (s.nextMove = .ackRedraw → ∃ t, step s = .next t ∧ t.redrawPending = false ∧
      Frame [] [] [.redrawPending] s.takeMove t) ∧
    (s.nextMove = .quit → ∃ t, step s = .next t ∧ t.running = false ∧ Frame [] [] [.running] s.takeMove t)
end

