-- ==== Sys2Proof/Laws/State.lean ====
section
/-! SUPPORT. One lemma per field per update of State, true by rfl, so that no later proof unfolds a record
update. -/

namespace Sys2Proof.Machine

variable (s : State)

/-! ## setV -/

@[simp] theorem State.setV_v (x : Reg) (b : Byte) :
    (s.setV x b).v = s.v.set x.val b x.isLt := rfl
@[simp] theorem State.setV_idx (x : Reg) (b : Byte) :
    (s.setV x b).idx = s.idx := rfl
@[simp] theorem State.setV_pc (x : Reg) (b : Byte) :
    (s.setV x b).pc = s.pc := rfl
@[simp] theorem State.setV_dt (x : Reg) (b : Byte) :
    (s.setV x b).dt = s.dt := rfl
@[simp] theorem State.setV_st (x : Reg) (b : Byte) :
    (s.setV x b).st = s.st := rfl
@[simp] theorem State.setV_stack (x : Reg) (b : Byte) :
    (s.setV x b).stack = s.stack := rfl
@[simp] theorem State.setV_sp (x : Reg) (b : Byte) :
    (s.setV x b).sp = s.sp := rfl
@[simp] theorem State.setV_mem (x : Reg) (b : Byte) :
    (s.setV x b).mem = s.mem := rfl
@[simp] theorem State.setV_keyDown (x : Reg) (b : Byte) :
    (s.setV x b).keyDown = s.keyDown := rfl
@[simp] theorem State.setV_waitingForKey (x : Reg) (b : Byte) :
    (s.setV x b).waitingForKey = s.waitingForKey := rfl
@[simp] theorem State.setV_keyWaitSatisfied (x : Reg) (b : Byte) :
    (s.setV x b).keyWaitSatisfied = s.keyWaitSatisfied := rfl
@[simp] theorem State.setV_redrawPending (x : Reg) (b : Byte) :
    (s.setV x b).redrawPending = s.redrawPending := rfl
@[simp] theorem State.setV_running (x : Reg) (b : Byte) :
    (s.setV x b).running = s.running := rfl
@[simp] theorem State.setV_fault (x : Reg) (b : Byte) :
    (s.setV x b).fault = s.fault := rfl
@[simp] theorem State.setV_params (x : Reg) (b : Byte) :
    (s.setV x b).params = s.params := rfl
@[simp] theorem State.setV_draws (x : Reg) (b : Byte) :
    (s.setV x b).draws = s.draws := rfl
@[simp] theorem State.setV_hostMoves (x : Reg) (b : Byte) :
    (s.setV x b).hostMoves = s.hostMoves := rfl
@[simp] theorem State.setV_rounds (x : Reg) (b : Byte) :
    (s.setV x b).rounds = s.rounds := rfl
@[simp] theorem State.setV_loadOpen (x : Reg) (b : Byte) :
    (s.setV x b).loadOpen = s.loadOpen := rfl
@[simp] theorem State.setV_peek (x : Reg) (b : Byte) (i : Nat) :
    (s.setV x b).peek i = s.peek i := rfl

/-! ## setPc -/

@[simp] theorem State.setPc_v (a : Word) :
    (s.setPc a).v = s.v := rfl
@[simp] theorem State.setPc_idx (a : Word) :
    (s.setPc a).idx = s.idx := rfl
@[simp] theorem State.setPc_pc (a : Word) :
    (s.setPc a).pc = a := rfl
@[simp] theorem State.setPc_dt (a : Word) :
    (s.setPc a).dt = s.dt := rfl
@[simp] theorem State.setPc_st (a : Word) :
    (s.setPc a).st = s.st := rfl
@[simp] theorem State.setPc_stack (a : Word) :
    (s.setPc a).stack = s.stack := rfl
@[simp] theorem State.setPc_sp (a : Word) :
    (s.setPc a).sp = s.sp := rfl
@[simp] theorem State.setPc_mem (a : Word) :
    (s.setPc a).mem = s.mem := rfl
@[simp] theorem State.setPc_keyDown (a : Word) :
    (s.setPc a).keyDown = s.keyDown := rfl
@[simp] theorem State.setPc_waitingForKey (a : Word) :
    (s.setPc a).waitingForKey = s.waitingForKey := rfl
@[simp] theorem State.setPc_keyWaitSatisfied (a : Word) :
    (s.setPc a).keyWaitSatisfied = s.keyWaitSatisfied := rfl
@[simp] theorem State.setPc_redrawPending (a : Word) :
    (s.setPc a).redrawPending = s.redrawPending := rfl
@[simp] theorem State.setPc_running (a : Word) :
    (s.setPc a).running = s.running := rfl
@[simp] theorem State.setPc_fault (a : Word) :
    (s.setPc a).fault = s.fault := rfl
@[simp] theorem State.setPc_params (a : Word) :
    (s.setPc a).params = s.params := rfl
@[simp] theorem State.setPc_draws (a : Word) :
    (s.setPc a).draws = s.draws := rfl
@[simp] theorem State.setPc_hostMoves (a : Word) :
    (s.setPc a).hostMoves = s.hostMoves := rfl
@[simp] theorem State.setPc_rounds (a : Word) :
    (s.setPc a).rounds = s.rounds := rfl
@[simp] theorem State.setPc_loadOpen (a : Word) :
    (s.setPc a).loadOpen = s.loadOpen := rfl
@[simp] theorem State.setPc_V (a : Word) (r : Reg) :
    (s.setPc a).V r = s.V r := rfl
@[simp] theorem State.setPc_peek (a : Word) (i : Nat) :
    (s.setPc a).peek i = s.peek i := rfl

/-! ## setI -/

@[simp] theorem State.setI_v (a : Word) :
    (s.setI a).v = s.v := rfl
@[simp] theorem State.setI_idx (a : Word) :
    (s.setI a).idx = a := rfl
@[simp] theorem State.setI_pc (a : Word) :
    (s.setI a).pc = s.pc := rfl
@[simp] theorem State.setI_dt (a : Word) :
    (s.setI a).dt = s.dt := rfl
@[simp] theorem State.setI_st (a : Word) :
    (s.setI a).st = s.st := rfl
@[simp] theorem State.setI_stack (a : Word) :
    (s.setI a).stack = s.stack := rfl
@[simp] theorem State.setI_sp (a : Word) :
    (s.setI a).sp = s.sp := rfl
@[simp] theorem State.setI_mem (a : Word) :
    (s.setI a).mem = s.mem := rfl
@[simp] theorem State.setI_keyDown (a : Word) :
    (s.setI a).keyDown = s.keyDown := rfl
@[simp] theorem State.setI_waitingForKey (a : Word) :
    (s.setI a).waitingForKey = s.waitingForKey := rfl
@[simp] theorem State.setI_keyWaitSatisfied (a : Word) :
    (s.setI a).keyWaitSatisfied = s.keyWaitSatisfied := rfl
@[simp] theorem State.setI_redrawPending (a : Word) :
    (s.setI a).redrawPending = s.redrawPending := rfl
@[simp] theorem State.setI_running (a : Word) :
    (s.setI a).running = s.running := rfl
@[simp] theorem State.setI_fault (a : Word) :
    (s.setI a).fault = s.fault := rfl
@[simp] theorem State.setI_params (a : Word) :
    (s.setI a).params = s.params := rfl
@[simp] theorem State.setI_draws (a : Word) :
    (s.setI a).draws = s.draws := rfl
@[simp] theorem State.setI_hostMoves (a : Word) :
    (s.setI a).hostMoves = s.hostMoves := rfl
@[simp] theorem State.setI_rounds (a : Word) :
    (s.setI a).rounds = s.rounds := rfl
@[simp] theorem State.setI_loadOpen (a : Word) :
    (s.setI a).loadOpen = s.loadOpen := rfl
@[simp] theorem State.setI_V (a : Word) (r : Reg) :
    (s.setI a).V r = s.V r := rfl
@[simp] theorem State.setI_peek (a : Word) (i : Nat) :
    (s.setI a).peek i = s.peek i := rfl

/-! ## setDt -/

@[simp] theorem State.setDt_v (b : Byte) :
    (s.setDt b).v = s.v := rfl
@[simp] theorem State.setDt_idx (b : Byte) :
    (s.setDt b).idx = s.idx := rfl
@[simp] theorem State.setDt_pc (b : Byte) :
    (s.setDt b).pc = s.pc := rfl
@[simp] theorem State.setDt_dt (b : Byte) :
    (s.setDt b).dt = b := rfl
@[simp] theorem State.setDt_st (b : Byte) :
    (s.setDt b).st = s.st := rfl
@[simp] theorem State.setDt_stack (b : Byte) :
    (s.setDt b).stack = s.stack := rfl
@[simp] theorem State.setDt_sp (b : Byte) :
    (s.setDt b).sp = s.sp := rfl
@[simp] theorem State.setDt_mem (b : Byte) :
    (s.setDt b).mem = s.mem := rfl
@[simp] theorem State.setDt_keyDown (b : Byte) :
    (s.setDt b).keyDown = s.keyDown := rfl
@[simp] theorem State.setDt_waitingForKey (b : Byte) :
    (s.setDt b).waitingForKey = s.waitingForKey := rfl
@[simp] theorem State.setDt_keyWaitSatisfied (b : Byte) :
    (s.setDt b).keyWaitSatisfied = s.keyWaitSatisfied := rfl
@[simp] theorem State.setDt_redrawPending (b : Byte) :
    (s.setDt b).redrawPending = s.redrawPending := rfl
@[simp] theorem State.setDt_running (b : Byte) :
    (s.setDt b).running = s.running := rfl
@[simp] theorem State.setDt_fault (b : Byte) :
    (s.setDt b).fault = s.fault := rfl
@[simp] theorem State.setDt_params (b : Byte) :
    (s.setDt b).params = s.params := rfl
@[simp] theorem State.setDt_draws (b : Byte) :
    (s.setDt b).draws = s.draws := rfl
@[simp] theorem State.setDt_hostMoves (b : Byte) :
    (s.setDt b).hostMoves = s.hostMoves := rfl
@[simp] theorem State.setDt_rounds (b : Byte) :
    (s.setDt b).rounds = s.rounds := rfl
@[simp] theorem State.setDt_loadOpen (b : Byte) :
    (s.setDt b).loadOpen = s.loadOpen := rfl
@[simp] theorem State.setDt_V (b : Byte) (r : Reg) :
    (s.setDt b).V r = s.V r := rfl
@[simp] theorem State.setDt_peek (b : Byte) (i : Nat) :
    (s.setDt b).peek i = s.peek i := rfl

/-! ## setSt -/

@[simp] theorem State.setSt_v (b : Byte) :
    (s.setSt b).v = s.v := rfl
@[simp] theorem State.setSt_idx (b : Byte) :
    (s.setSt b).idx = s.idx := rfl
@[simp] theorem State.setSt_pc (b : Byte) :
    (s.setSt b).pc = s.pc := rfl
@[simp] theorem State.setSt_dt (b : Byte) :
    (s.setSt b).dt = s.dt := rfl
@[simp] theorem State.setSt_st (b : Byte) :
    (s.setSt b).st = b := rfl
@[simp] theorem State.setSt_stack (b : Byte) :
    (s.setSt b).stack = s.stack := rfl
@[simp] theorem State.setSt_sp (b : Byte) :
    (s.setSt b).sp = s.sp := rfl
@[simp] theorem State.setSt_mem (b : Byte) :
    (s.setSt b).mem = s.mem := rfl
@[simp] theorem State.setSt_keyDown (b : Byte) :
    (s.setSt b).keyDown = s.keyDown := rfl
@[simp] theorem State.setSt_waitingForKey (b : Byte) :
    (s.setSt b).waitingForKey = s.waitingForKey := rfl
@[simp] theorem State.setSt_keyWaitSatisfied (b : Byte) :
    (s.setSt b).keyWaitSatisfied = s.keyWaitSatisfied := rfl
@[simp] theorem State.setSt_redrawPending (b : Byte) :
    (s.setSt b).redrawPending = s.redrawPending := rfl
@[simp] theorem State.setSt_running (b : Byte) :
    (s.setSt b).running = s.running := rfl
@[simp] theorem State.setSt_fault (b : Byte) :
    (s.setSt b).fault = s.fault := rfl
@[simp] theorem State.setSt_params (b : Byte) :
    (s.setSt b).params = s.params := rfl
@[simp] theorem State.setSt_draws (b : Byte) :
    (s.setSt b).draws = s.draws := rfl
@[simp] theorem State.setSt_hostMoves (b : Byte) :
    (s.setSt b).hostMoves = s.hostMoves := rfl
@[simp] theorem State.setSt_rounds (b : Byte) :
    (s.setSt b).rounds = s.rounds := rfl
@[simp] theorem State.setSt_loadOpen (b : Byte) :
    (s.setSt b).loadOpen = s.loadOpen := rfl
@[simp] theorem State.setSt_V (b : Byte) (r : Reg) :
    (s.setSt b).V r = s.V r := rfl
@[simp] theorem State.setSt_peek (b : Byte) (i : Nat) :
    (s.setSt b).peek i = s.peek i := rfl

/-! ## setKeyDown -/

@[simp] theorem State.setKeyDown_v (k : Option Key) :
    (s.setKeyDown k).v = s.v := rfl
@[simp] theorem State.setKeyDown_idx (k : Option Key) :
    (s.setKeyDown k).idx = s.idx := rfl
@[simp] theorem State.setKeyDown_pc (k : Option Key) :
    (s.setKeyDown k).pc = s.pc := rfl
@[simp] theorem State.setKeyDown_dt (k : Option Key) :
    (s.setKeyDown k).dt = s.dt := rfl
@[simp] theorem State.setKeyDown_st (k : Option Key) :
    (s.setKeyDown k).st = s.st := rfl
@[simp] theorem State.setKeyDown_stack (k : Option Key) :
    (s.setKeyDown k).stack = s.stack := rfl
@[simp] theorem State.setKeyDown_sp (k : Option Key) :
    (s.setKeyDown k).sp = s.sp := rfl
@[simp] theorem State.setKeyDown_mem (k : Option Key) :
    (s.setKeyDown k).mem = s.mem := rfl
@[simp] theorem State.setKeyDown_keyDown (k : Option Key) :
    (s.setKeyDown k).keyDown = k := rfl
@[simp] theorem State.setKeyDown_waitingForKey (k : Option Key) :
    (s.setKeyDown k).waitingForKey = s.waitingForKey := rfl
@[simp] theorem State.setKeyDown_keyWaitSatisfied (k : Option Key) :
    (s.setKeyDown k).keyWaitSatisfied = s.keyWaitSatisfied := rfl
@[simp] theorem State.setKeyDown_redrawPending (k : Option Key) :
    (s.setKeyDown k).redrawPending = s.redrawPending := rfl
@[simp] theorem State.setKeyDown_running (k : Option Key) :
    (s.setKeyDown k).running = s.running := rfl
@[simp] theorem State.setKeyDown_fault (k : Option Key) :
    (s.setKeyDown k).fault = s.fault := rfl
@[simp] theorem State.setKeyDown_params (k : Option Key) :
    (s.setKeyDown k).params = s.params := rfl
@[simp] theorem State.setKeyDown_draws (k : Option Key) :
    (s.setKeyDown k).draws = s.draws := rfl
@[simp] theorem State.setKeyDown_hostMoves (k : Option Key) :
    (s.setKeyDown k).hostMoves = s.hostMoves := rfl
@[simp] theorem State.setKeyDown_rounds (k : Option Key) :
    (s.setKeyDown k).rounds = s.rounds := rfl
@[simp] theorem State.setKeyDown_loadOpen (k : Option Key) :
    (s.setKeyDown k).loadOpen = s.loadOpen := rfl
@[simp] theorem State.setKeyDown_V (k : Option Key) (r : Reg) :
    (s.setKeyDown k).V r = s.V r := rfl
@[simp] theorem State.setKeyDown_peek (k : Option Key) (i : Nat) :
    (s.setKeyDown k).peek i = s.peek i := rfl

/-! ## setWaiting -/

@[simp] theorem State.setWaiting_v (b : Bool) :
    (s.setWaiting b).v = s.v := rfl
@[simp] theorem State.setWaiting_idx (b : Bool) :
    (s.setWaiting b).idx = s.idx := rfl
@[simp] theorem State.setWaiting_pc (b : Bool) :
    (s.setWaiting b).pc = s.pc := rfl
@[simp] theorem State.setWaiting_dt (b : Bool) :
    (s.setWaiting b).dt = s.dt := rfl
@[simp] theorem State.setWaiting_st (b : Bool) :
    (s.setWaiting b).st = s.st := rfl
@[simp] theorem State.setWaiting_stack (b : Bool) :
    (s.setWaiting b).stack = s.stack := rfl
@[simp] theorem State.setWaiting_sp (b : Bool) :
    (s.setWaiting b).sp = s.sp := rfl
@[simp] theorem State.setWaiting_mem (b : Bool) :
    (s.setWaiting b).mem = s.mem := rfl
@[simp] theorem State.setWaiting_keyDown (b : Bool) :
    (s.setWaiting b).keyDown = s.keyDown := rfl
@[simp] theorem State.setWaiting_waitingForKey (b : Bool) :
    (s.setWaiting b).waitingForKey = b := rfl
@[simp] theorem State.setWaiting_keyWaitSatisfied (b : Bool) :
    (s.setWaiting b).keyWaitSatisfied = s.keyWaitSatisfied := rfl
@[simp] theorem State.setWaiting_redrawPending (b : Bool) :
    (s.setWaiting b).redrawPending = s.redrawPending := rfl
@[simp] theorem State.setWaiting_running (b : Bool) :
    (s.setWaiting b).running = s.running := rfl
@[simp] theorem State.setWaiting_fault (b : Bool) :
    (s.setWaiting b).fault = s.fault := rfl
@[simp] theorem State.setWaiting_params (b : Bool) :
    (s.setWaiting b).params = s.params := rfl
@[simp] theorem State.setWaiting_draws (b : Bool) :
    (s.setWaiting b).draws = s.draws := rfl
@[simp] theorem State.setWaiting_hostMoves (b : Bool) :
    (s.setWaiting b).hostMoves = s.hostMoves := rfl
@[simp] theorem State.setWaiting_rounds (b : Bool) :
    (s.setWaiting b).rounds = s.rounds := rfl
@[simp] theorem State.setWaiting_loadOpen (b : Bool) :
    (s.setWaiting b).loadOpen = s.loadOpen := rfl
@[simp] theorem State.setWaiting_V (b : Bool) (r : Reg) :
    (s.setWaiting b).V r = s.V r := rfl
@[simp] theorem State.setWaiting_peek (b : Bool) (i : Nat) :
    (s.setWaiting b).peek i = s.peek i := rfl

/-! ## setSatisfied -/

@[simp] theorem State.setSatisfied_v (b : Bool) :
    (s.setSatisfied b).v = s.v := rfl
@[simp] theorem State.setSatisfied_idx (b : Bool) :
    (s.setSatisfied b).idx = s.idx := rfl
@[simp] theorem State.setSatisfied_pc (b : Bool) :
    (s.setSatisfied b).pc = s.pc := rfl
@[simp] theorem State.setSatisfied_dt (b : Bool) :
    (s.setSatisfied b).dt = s.dt := rfl
@[simp] theorem State.setSatisfied_st (b : Bool) :
    (s.setSatisfied b).st = s.st := rfl
@[simp] theorem State.setSatisfied_stack (b : Bool) :
    (s.setSatisfied b).stack = s.stack := rfl
@[simp] theorem State.setSatisfied_sp (b : Bool) :
    (s.setSatisfied b).sp = s.sp := rfl
@[simp] theorem State.setSatisfied_mem (b : Bool) :
    (s.setSatisfied b).mem = s.mem := rfl
@[simp] theorem State.setSatisfied_keyDown (b : Bool) :
    (s.setSatisfied b).keyDown = s.keyDown := rfl
@[simp] theorem State.setSatisfied_waitingForKey (b : Bool) :
    (s.setSatisfied b).waitingForKey = s.waitingForKey := rfl
@[simp] theorem State.setSatisfied_keyWaitSatisfied (b : Bool) :
    (s.setSatisfied b).keyWaitSatisfied = b := rfl
@[simp] theorem State.setSatisfied_redrawPending (b : Bool) :
    (s.setSatisfied b).redrawPending = s.redrawPending := rfl
@[simp] theorem State.setSatisfied_running (b : Bool) :
    (s.setSatisfied b).running = s.running := rfl
@[simp] theorem State.setSatisfied_fault (b : Bool) :
    (s.setSatisfied b).fault = s.fault := rfl
@[simp] theorem State.setSatisfied_params (b : Bool) :
    (s.setSatisfied b).params = s.params := rfl
@[simp] theorem State.setSatisfied_draws (b : Bool) :
    (s.setSatisfied b).draws = s.draws := rfl
@[simp] theorem State.setSatisfied_hostMoves (b : Bool) :
    (s.setSatisfied b).hostMoves = s.hostMoves := rfl
@[simp] theorem State.setSatisfied_rounds (b : Bool) :
    (s.setSatisfied b).rounds = s.rounds := rfl
@[simp] theorem State.setSatisfied_loadOpen (b : Bool) :
    (s.setSatisfied b).loadOpen = s.loadOpen := rfl
@[simp] theorem State.setSatisfied_V (b : Bool) (r : Reg) :
    (s.setSatisfied b).V r = s.V r := rfl
@[simp] theorem State.setSatisfied_peek (b : Bool) (i : Nat) :
    (s.setSatisfied b).peek i = s.peek i := rfl

/-! ## setRedraw -/

@[simp] theorem State.setRedraw_v (b : Bool) :
    (s.setRedraw b).v = s.v := rfl
@[simp] theorem State.setRedraw_idx (b : Bool) :
    (s.setRedraw b).idx = s.idx := rfl
@[simp] theorem State.setRedraw_pc (b : Bool) :
    (s.setRedraw b).pc = s.pc := rfl
@[simp] theorem State.setRedraw_dt (b : Bool) :
    (s.setRedraw b).dt = s.dt := rfl
@[simp] theorem State.setRedraw_st (b : Bool) :
    (s.setRedraw b).st = s.st := rfl
@[simp] theorem State.setRedraw_stack (b : Bool) :
    (s.setRedraw b).stack = s.stack := rfl
@[simp] theorem State.setRedraw_sp (b : Bool) :
    (s.setRedraw b).sp = s.sp := rfl
@[simp] theorem State.setRedraw_mem (b : Bool) :
    (s.setRedraw b).mem = s.mem := rfl
@[simp] theorem State.setRedraw_keyDown (b : Bool) :
    (s.setRedraw b).keyDown = s.keyDown := rfl
@[simp] theorem State.setRedraw_waitingForKey (b : Bool) :
    (s.setRedraw b).waitingForKey = s.waitingForKey := rfl
@[simp] theorem State.setRedraw_keyWaitSatisfied (b : Bool) :
    (s.setRedraw b).keyWaitSatisfied = s.keyWaitSatisfied := rfl
@[simp] theorem State.setRedraw_redrawPending (b : Bool) :
    (s.setRedraw b).redrawPending = b := rfl
@[simp] theorem State.setRedraw_running (b : Bool) :
    (s.setRedraw b).running = s.running := rfl
@[simp] theorem State.setRedraw_fault (b : Bool) :
    (s.setRedraw b).fault = s.fault := rfl
@[simp] theorem State.setRedraw_params (b : Bool) :
    (s.setRedraw b).params = s.params := rfl
@[simp] theorem State.setRedraw_draws (b : Bool) :
    (s.setRedraw b).draws = s.draws := rfl
@[simp] theorem State.setRedraw_hostMoves (b : Bool) :
    (s.setRedraw b).hostMoves = s.hostMoves := rfl
@[simp] theorem State.setRedraw_rounds (b : Bool) :
    (s.setRedraw b).rounds = s.rounds := rfl
@[simp] theorem State.setRedraw_loadOpen (b : Bool) :
    (s.setRedraw b).loadOpen = s.loadOpen := rfl
@[simp] theorem State.setRedraw_V (b : Bool) (r : Reg) :
    (s.setRedraw b).V r = s.V r := rfl
@[simp] theorem State.setRedraw_peek (b : Bool) (i : Nat) :
    (s.setRedraw b).peek i = s.peek i := rfl

/-! ## setRunning -/

@[simp] theorem State.setRunning_v (b : Bool) :
    (s.setRunning b).v = s.v := rfl
@[simp] theorem State.setRunning_idx (b : Bool) :
    (s.setRunning b).idx = s.idx := rfl
@[simp] theorem State.setRunning_pc (b : Bool) :
    (s.setRunning b).pc = s.pc := rfl
@[simp] theorem State.setRunning_dt (b : Bool) :
    (s.setRunning b).dt = s.dt := rfl
@[simp] theorem State.setRunning_st (b : Bool) :
    (s.setRunning b).st = s.st := rfl
@[simp] theorem State.setRunning_stack (b : Bool) :
    (s.setRunning b).stack = s.stack := rfl
@[simp] theorem State.setRunning_sp (b : Bool) :
    (s.setRunning b).sp = s.sp := rfl
@[simp] theorem State.setRunning_mem (b : Bool) :
    (s.setRunning b).mem = s.mem := rfl
@[simp] theorem State.setRunning_keyDown (b : Bool) :
    (s.setRunning b).keyDown = s.keyDown := rfl
@[simp] theorem State.setRunning_waitingForKey (b : Bool) :
    (s.setRunning b).waitingForKey = s.waitingForKey := rfl
@[simp] theorem State.setRunning_keyWaitSatisfied (b : Bool) :
    (s.setRunning b).keyWaitSatisfied = s.keyWaitSatisfied := rfl
@[simp] theorem State.setRunning_redrawPending (b : Bool) :
    (s.setRunning b).redrawPending = s.redrawPending := rfl
@[simp] theorem State.setRunning_running (b : Bool) :
    (s.setRunning b).running = b := rfl
@[simp] theorem State.setRunning_fault (b : Bool) :
    (s.setRunning b).fault = s.fault := rfl
@[simp] theorem State.setRunning_params (b : Bool) :
    (s.setRunning b).params = s.params := rfl
@[simp] theorem State.setRunning_draws (b : Bool) :
    (s.setRunning b).draws = s.draws := rfl
@[simp] theorem State.setRunning_hostMoves (b : Bool) :
    (s.setRunning b).hostMoves = s.hostMoves := rfl
@[simp] theorem State.setRunning_rounds (b : Bool) :
    (s.setRunning b).rounds = s.rounds := rfl
@[simp] theorem State.setRunning_loadOpen (b : Bool) :
    (s.setRunning b).loadOpen = s.loadOpen := rfl
@[simp] theorem State.setRunning_V (b : Bool) (r : Reg) :
    (s.setRunning b).V r = s.V r := rfl
@[simp] theorem State.setRunning_peek (b : Bool) (i : Nat) :
    (s.setRunning b).peek i = s.peek i := rfl

/-! ## poke -/

@[simp] theorem State.poke_v (a : Nat) (w : Byte) :
    (s.poke a w).v = s.v := rfl
@[simp] theorem State.poke_idx (a : Nat) (w : Byte) :
    (s.poke a w).idx = s.idx := rfl
@[simp] theorem State.poke_pc (a : Nat) (w : Byte) :
    (s.poke a w).pc = s.pc := rfl
@[simp] theorem State.poke_dt (a : Nat) (w : Byte) :
    (s.poke a w).dt = s.dt := rfl
@[simp] theorem State.poke_st (a : Nat) (w : Byte) :
    (s.poke a w).st = s.st := rfl
@[simp] theorem State.poke_stack (a : Nat) (w : Byte) :
    (s.poke a w).stack = s.stack := rfl
@[simp] theorem State.poke_sp (a : Nat) (w : Byte) :
    (s.poke a w).sp = s.sp := rfl
@[simp] theorem State.poke_mem (a : Nat) (w : Byte) :
    (s.poke a w).mem = if w = resetByte s.params a then Memory.erase a s.mem else Memory.insert a w s.mem := rfl
@[simp] theorem State.poke_keyDown (a : Nat) (w : Byte) :
    (s.poke a w).keyDown = s.keyDown := rfl
@[simp] theorem State.poke_waitingForKey (a : Nat) (w : Byte) :
    (s.poke a w).waitingForKey = s.waitingForKey := rfl
@[simp] theorem State.poke_keyWaitSatisfied (a : Nat) (w : Byte) :
    (s.poke a w).keyWaitSatisfied = s.keyWaitSatisfied := rfl
@[simp] theorem State.poke_redrawPending (a : Nat) (w : Byte) :
    (s.poke a w).redrawPending = s.redrawPending := rfl
@[simp] theorem State.poke_running (a : Nat) (w : Byte) :
    (s.poke a w).running = s.running := rfl
@[simp] theorem State.poke_fault (a : Nat) (w : Byte) :
    (s.poke a w).fault = s.fault := rfl
@[simp] theorem State.poke_params (a : Nat) (w : Byte) :
    (s.poke a w).params = s.params := rfl
@[simp] theorem State.poke_draws (a : Nat) (w : Byte) :
    (s.poke a w).draws = s.draws := rfl
@[simp] theorem State.poke_hostMoves (a : Nat) (w : Byte) :
    (s.poke a w).hostMoves = s.hostMoves := rfl
@[simp] theorem State.poke_rounds (a : Nat) (w : Byte) :
    (s.poke a w).rounds = s.rounds := rfl
@[simp] theorem State.poke_loadOpen (a : Nat) (w : Byte) :
    (s.poke a w).loadOpen = s.loadOpen := rfl
@[simp] theorem State.poke_V (a : Nat) (w : Byte) (r : Reg) :
    (s.poke a w).V r = s.V r := rfl

/-! ## nextDraw -/

@[simp] theorem State.nextDraw_v :
    (s.nextDraw).v = s.v := rfl
@[simp] theorem State.nextDraw_idx :
    (s.nextDraw).idx = s.idx := rfl
@[simp] theorem State.nextDraw_pc :
    (s.nextDraw).pc = s.pc := rfl
@[simp] theorem State.nextDraw_dt :
    (s.nextDraw).dt = s.dt := rfl
@[simp] theorem State.nextDraw_st :
    (s.nextDraw).st = s.st := rfl
@[simp] theorem State.nextDraw_stack :
    (s.nextDraw).stack = s.stack := rfl
@[simp] theorem State.nextDraw_sp :
    (s.nextDraw).sp = s.sp := rfl
@[simp] theorem State.nextDraw_mem :
    (s.nextDraw).mem = s.mem := rfl
@[simp] theorem State.nextDraw_keyDown :
    (s.nextDraw).keyDown = s.keyDown := rfl
@[simp] theorem State.nextDraw_waitingForKey :
    (s.nextDraw).waitingForKey = s.waitingForKey := rfl
@[simp] theorem State.nextDraw_keyWaitSatisfied :
    (s.nextDraw).keyWaitSatisfied = s.keyWaitSatisfied := rfl
@[simp] theorem State.nextDraw_redrawPending :
    (s.nextDraw).redrawPending = s.redrawPending := rfl
@[simp] theorem State.nextDraw_running :
    (s.nextDraw).running = s.running := rfl
@[simp] theorem State.nextDraw_fault :
    (s.nextDraw).fault = s.fault := rfl
@[simp] theorem State.nextDraw_params :
    (s.nextDraw).params = s.params := rfl
@[simp] theorem State.nextDraw_draws :
    (s.nextDraw).draws = s.draws + 1 := rfl
@[simp] theorem State.nextDraw_hostMoves :
    (s.nextDraw).hostMoves = s.hostMoves := rfl
@[simp] theorem State.nextDraw_rounds :
    (s.nextDraw).rounds = s.rounds := rfl
@[simp] theorem State.nextDraw_loadOpen :
    (s.nextDraw).loadOpen = s.loadOpen := rfl
@[simp] theorem State.nextDraw_V (r : Reg) :
    (s.nextDraw).V r = s.V r := rfl
@[simp] theorem State.nextDraw_peek (i : Nat) :
    (s.nextDraw).peek i = s.peek i := rfl

/-! ## takeFault -/

@[simp] theorem State.takeFault_v (c : FaultCode) (a : Word) (w : Option Word) (n : Nat) :
    (s.takeFault c a w n).v = s.v := rfl
@[simp] theorem State.takeFault_idx (c : FaultCode) (a : Word) (w : Option Word) (n : Nat) :
    (s.takeFault c a w n).idx = s.idx := rfl
@[simp] theorem State.takeFault_pc (c : FaultCode) (a : Word) (w : Option Word) (n : Nat) :
    (s.takeFault c a w n).pc = a := rfl
@[simp] theorem State.takeFault_dt (c : FaultCode) (a : Word) (w : Option Word) (n : Nat) :
    (s.takeFault c a w n).dt = s.dt := rfl
@[simp] theorem State.takeFault_st (c : FaultCode) (a : Word) (w : Option Word) (n : Nat) :
    (s.takeFault c a w n).st = s.st := rfl
@[simp] theorem State.takeFault_stack (c : FaultCode) (a : Word) (w : Option Word) (n : Nat) :
    (s.takeFault c a w n).stack = s.stack := rfl
@[simp] theorem State.takeFault_sp (c : FaultCode) (a : Word) (w : Option Word) (n : Nat) :
    (s.takeFault c a w n).sp = s.sp := rfl
@[simp] theorem State.takeFault_mem (c : FaultCode) (a : Word) (w : Option Word) (n : Nat) :
    (s.takeFault c a w n).mem = s.mem := rfl
@[simp] theorem State.takeFault_keyDown (c : FaultCode) (a : Word) (w : Option Word) (n : Nat) :
    (s.takeFault c a w n).keyDown = s.keyDown := rfl
@[simp] theorem State.takeFault_waitingForKey (c : FaultCode) (a : Word) (w : Option Word) (n : Nat) :
    (s.takeFault c a w n).waitingForKey = s.waitingForKey := rfl
@[simp] theorem State.takeFault_keyWaitSatisfied (c : FaultCode) (a : Word) (w : Option Word) (n : Nat) :
    (s.takeFault c a w n).keyWaitSatisfied = s.keyWaitSatisfied := rfl
@[simp] theorem State.takeFault_redrawPending (c : FaultCode) (a : Word) (w : Option Word) (n : Nat) :
    (s.takeFault c a w n).redrawPending = s.redrawPending := rfl
@[simp] theorem State.takeFault_running (c : FaultCode) (a : Word) (w : Option Word) (n : Nat) :
    (s.takeFault c a w n).running = s.running := rfl
@[simp] theorem State.takeFault_fault (c : FaultCode) (a : Word) (w : Option Word) (n : Nat) :
    (s.takeFault c a w n).fault = some ⟨c, a, w, n⟩ := rfl
@[simp] theorem State.takeFault_params (c : FaultCode) (a : Word) (w : Option Word) (n : Nat) :
    (s.takeFault c a w n).params = s.params := rfl
@[simp] theorem State.takeFault_draws (c : FaultCode) (a : Word) (w : Option Word) (n : Nat) :
    (s.takeFault c a w n).draws = s.draws := rfl
@[simp] theorem State.takeFault_hostMoves (c : FaultCode) (a : Word) (w : Option Word) (n : Nat) :
    (s.takeFault c a w n).hostMoves = s.hostMoves := rfl
@[simp] theorem State.takeFault_rounds (c : FaultCode) (a : Word) (w : Option Word) (n : Nat) :
    (s.takeFault c a w n).rounds = s.rounds := rfl
@[simp] theorem State.takeFault_loadOpen (c : FaultCode) (a : Word) (w : Option Word) (n : Nat) :
    (s.takeFault c a w n).loadOpen = s.loadOpen := rfl
@[simp] theorem State.takeFault_V (c : FaultCode) (a : Word) (w : Option Word) (n : Nat) (r : Reg) :
    (s.takeFault c a w n).V r = s.V r := rfl
@[simp] theorem State.takeFault_peek (c : FaultCode) (a : Word) (w : Option Word) (n : Nat) (i : Nat) :
    (s.takeFault c a w n).peek i = s.peek i := rfl

/-! ## setLoadOpen -/

@[simp] theorem State.setLoadOpen_v (b : Bool) :
    (s.setLoadOpen b).v = s.v := rfl
@[simp] theorem State.setLoadOpen_idx (b : Bool) :
    (s.setLoadOpen b).idx = s.idx := rfl
@[simp] theorem State.setLoadOpen_pc (b : Bool) :
    (s.setLoadOpen b).pc = s.pc := rfl
@[simp] theorem State.setLoadOpen_dt (b : Bool) :
    (s.setLoadOpen b).dt = s.dt := rfl
@[simp] theorem State.setLoadOpen_st (b : Bool) :
    (s.setLoadOpen b).st = s.st := rfl
@[simp] theorem State.setLoadOpen_stack (b : Bool) :
    (s.setLoadOpen b).stack = s.stack := rfl
@[simp] theorem State.setLoadOpen_sp (b : Bool) :
    (s.setLoadOpen b).sp = s.sp := rfl
@[simp] theorem State.setLoadOpen_mem (b : Bool) :
    (s.setLoadOpen b).mem = s.mem := rfl
@[simp] theorem State.setLoadOpen_keyDown (b : Bool) :
    (s.setLoadOpen b).keyDown = s.keyDown := rfl
@[simp] theorem State.setLoadOpen_waitingForKey (b : Bool) :
    (s.setLoadOpen b).waitingForKey = s.waitingForKey := rfl
@[simp] theorem State.setLoadOpen_keyWaitSatisfied (b : Bool) :
    (s.setLoadOpen b).keyWaitSatisfied = s.keyWaitSatisfied := rfl
@[simp] theorem State.setLoadOpen_redrawPending (b : Bool) :
    (s.setLoadOpen b).redrawPending = s.redrawPending := rfl
@[simp] theorem State.setLoadOpen_running (b : Bool) :
    (s.setLoadOpen b).running = s.running := rfl
@[simp] theorem State.setLoadOpen_fault (b : Bool) :
    (s.setLoadOpen b).fault = s.fault := rfl
@[simp] theorem State.setLoadOpen_params (b : Bool) :
    (s.setLoadOpen b).params = s.params := rfl
@[simp] theorem State.setLoadOpen_draws (b : Bool) :
    (s.setLoadOpen b).draws = s.draws := rfl
@[simp] theorem State.setLoadOpen_hostMoves (b : Bool) :
    (s.setLoadOpen b).hostMoves = s.hostMoves := rfl
@[simp] theorem State.setLoadOpen_rounds (b : Bool) :
    (s.setLoadOpen b).rounds = s.rounds := rfl
@[simp] theorem State.setLoadOpen_loadOpen (b : Bool) :
    (s.setLoadOpen b).loadOpen = b := rfl
@[simp] theorem State.setLoadOpen_V (b : Bool) (r : Reg) :
    (s.setLoadOpen b).V r = s.V r := rfl
@[simp] theorem State.setLoadOpen_peek (b : Bool) (i : Nat) :
    (s.setLoadOpen b).peek i = s.peek i := rfl

/-! ## setSchedule -/

@[simp] theorem State.setSchedule_v (l : List HostMove) (k : Nat) :
    (s.setSchedule l k).v = s.v := rfl
@[simp] theorem State.setSchedule_idx (l : List HostMove) (k : Nat) :
    (s.setSchedule l k).idx = s.idx := rfl
@[simp] theorem State.setSchedule_pc (l : List HostMove) (k : Nat) :
    (s.setSchedule l k).pc = s.pc := rfl
@[simp] theorem State.setSchedule_dt (l : List HostMove) (k : Nat) :
    (s.setSchedule l k).dt = s.dt := rfl
@[simp] theorem State.setSchedule_st (l : List HostMove) (k : Nat) :
    (s.setSchedule l k).st = s.st := rfl
@[simp] theorem State.setSchedule_stack (l : List HostMove) (k : Nat) :
    (s.setSchedule l k).stack = s.stack := rfl
@[simp] theorem State.setSchedule_sp (l : List HostMove) (k : Nat) :
    (s.setSchedule l k).sp = s.sp := rfl
@[simp] theorem State.setSchedule_mem (l : List HostMove) (k : Nat) :
    (s.setSchedule l k).mem = s.mem := rfl
@[simp] theorem State.setSchedule_keyDown (l : List HostMove) (k : Nat) :
    (s.setSchedule l k).keyDown = s.keyDown := rfl
@[simp] theorem State.setSchedule_waitingForKey (l : List HostMove) (k : Nat) :
    (s.setSchedule l k).waitingForKey = s.waitingForKey := rfl
@[simp] theorem State.setSchedule_keyWaitSatisfied (l : List HostMove) (k : Nat) :
    (s.setSchedule l k).keyWaitSatisfied = s.keyWaitSatisfied := rfl
@[simp] theorem State.setSchedule_redrawPending (l : List HostMove) (k : Nat) :
    (s.setSchedule l k).redrawPending = s.redrawPending := rfl
@[simp] theorem State.setSchedule_running (l : List HostMove) (k : Nat) :
    (s.setSchedule l k).running = s.running := rfl
@[simp] theorem State.setSchedule_fault (l : List HostMove) (k : Nat) :
    (s.setSchedule l k).fault = s.fault := rfl
@[simp] theorem State.setSchedule_params (l : List HostMove) (k : Nat) :
    (s.setSchedule l k).params = s.params := rfl
@[simp] theorem State.setSchedule_draws (l : List HostMove) (k : Nat) :
    (s.setSchedule l k).draws = s.draws := rfl
@[simp] theorem State.setSchedule_hostMoves (l : List HostMove) (k : Nat) :
    (s.setSchedule l k).hostMoves = l := rfl
@[simp] theorem State.setSchedule_rounds (l : List HostMove) (k : Nat) :
    (s.setSchedule l k).rounds = k := rfl
@[simp] theorem State.setSchedule_loadOpen (l : List HostMove) (k : Nat) :
    (s.setSchedule l k).loadOpen = s.loadOpen := rfl
@[simp] theorem State.setSchedule_V (l : List HostMove) (k : Nat) (r : Reg) :
    (s.setSchedule l k).V r = s.V r := rfl
@[simp] theorem State.setSchedule_peek (l : List HostMove) (k : Nat) (i : Nat) :
    (s.setSchedule l k).peek i = s.peek i := rfl

/-! ## Operations that are one of these updates -/

@[simp] theorem State.pcForward_eq : s.pcForward = s.setPc (s.pc + 2) := rfl
@[simp] theorem State.pcRewind_eq : s.pcRewind = s.setPc (s.pc - 2) := rfl
@[simp] theorem State.raiseIn_eq (i : Instr) (f : Failure) :
    s.raiseIn i f = s.takeFault f.1 (s.pc - 2) (some (encode i)) f.2 := rfl
@[simp] theorem State.tickTimers_eq :
    s.tickTimers = (s.setDt (countDown s.dt)).setSt (countDown s.st) := rfl
@[simp] theorem State.takeMove_eq : s.takeMove = s.setSchedule s.movesAfter s.roundAfter := rfl
@[simp] theorem State.commitKey_eq (x : Reg) (k : Key) :
    s.commitKey x k = ((s.setV x (keyByte k)).setWaiting false).setSatisfied false := rfl
@[simp] theorem State.skipIf_true : s.skipIf true = s.setPc (s.pc + 2) := rfl
@[simp] theorem State.skipIf_false : s.skipIf false = s := rfl

/-! ## Registers -/

/-- Reading a register after writing one (spec/10_state.md R18). -/
theorem State.V_setV (x y : Reg) (b : Byte) :
    (s.setV x b).V y = if y = x then b else s.V y := by
  unfold State.V State.setV
  simp only [Vector.getElem_set, Fin.ext_iff, eq_comm]

@[simp] theorem State.V_setV_same (x : Reg) (b : Byte) : (s.setV x b).V x = b := by
  simp [State.V_setV]

theorem State.V_setV_ne {x y : Reg} (h : y ≠ x) (b : Byte) : (s.setV x b).V y = s.V y := by
  simp [State.V_setV, h]

/-! ## The call stack -/

/-- What a push onto a stack that is not full does (R29). -/
theorem State.push_of_lt (a : Word) (h : s.sp.val < 16) :
    s.push a = { s with stack := s.stack.set s.sp.val a h, sp := ⟨s.sp.val + 1, by omega⟩ } := by
  simp [State.push, h]

/-- What a pop from a stack that is not empty does (R29). -/
theorem State.popToPc_of_pos (h : 0 < s.sp.val) :
    s.popToPc = { s with sp := ⟨s.sp.val - 1, by omega⟩, pc := s.stackAt (s.sp.val - 1) } := by
  simp [State.popToPc, h]

/-! ## Checks -/

@[simp] theorem State.guarded_none (i : Instr) (run : State → State) : s.guarded i none run = run s := rfl
@[simp] theorem State.guarded_some (i : Instr) (f : Failure) (run : State → State) :
    s.guarded i (some f) run = s.raiseIn i f := rfl

/-- A guarded handler either raises the failure of its checks, changing nothing else, or runs (R54). -/
theorem State.guarded_cases (i : Instr) (check : Option Failure) (run : State → State) :
    (∃ f, check = some f ∧ s.guarded i check run = s.raiseIn i f) ∨
      (check = none ∧ s.guarded i check run = run s) := by
  cases check with
  | none => exact .inr ⟨rfl, rfl⟩
  | some f => exact .inl ⟨f, rfl, rfl⟩

end Sys2Proof.Machine
end

