-- ==== Sys2Proof/Laws/Memory.lean ====
section
/-! SUPPORT. The laws of memory: a read after a write, and the canonical form, which every memory operation
keeps. -/

namespace Sys2Proof.Machine

/-! ## Looking up after listing or erasing -/

theorem Memory.lookup_insert (a : Nat) (w : Byte) (m : List Host.Cell) (i : Nat) :
    Memory.lookup (Memory.insert a w m) i = if i = a then some w else Memory.lookup m i := by
  induction m with
  | nil => simp [Memory.insert, Memory.lookup, eq_comm]
  | cons c rest ih =>
    obtain ⟨b, u⟩ := c
    simp only [Memory.insert]
    split
    · simp [Memory.lookup, eq_comm]
    · split
      · rename_i hab
        subst hab
        simp only [Memory.lookup, eq_comm]
        split <;> simp_all
      · simp only [Memory.lookup, ih]
        split <;> split <;> simp_all

theorem Memory.lookup_erase (a : Nat) (m : List Host.Cell) (i : Nat) :
    Memory.lookup (Memory.erase a m) i = if i = a then none else Memory.lookup m i := by
  induction m with
  | nil => simp [Memory.erase, Memory.lookup]
  | cons c rest ih =>
    obtain ⟨b, u⟩ := c
    simp only [Memory.erase, List.filter_cons] at ih ⊢
    by_cases hb : b = a
    · subst hb
      simp only [Memory.lookup, ih, bne_self_eq_false, Bool.false_eq_true, if_false, eq_comm (a := b)]
      split <;> simp_all
    · simp only [bne_iff_ne, ne_eq, hb, not_false_eq_true, if_true, Memory.lookup, ih]
      split <;> split <;> simp_all

/-! ## Reading after writing -/

/-- A read after a write (spec/20_memory.md R49, R55): the addressed byte holds what was written, and every other
byte is as before. -/
theorem State.peek_poke (s : State) (a i : Nat) (w : Byte) :
    (s.poke a w).peek i = if i = a then w else s.peek i := by
  simp only [State.peek, State.poke]
  split
  · rename_i h
    rw [Memory.lookup_erase]
    split <;> simp_all
  · rw [Memory.lookup_insert]
    split <;> simp_all

@[simp] theorem State.peek_poke_same (s : State) (a : Nat) (w : Byte) : (s.poke a w).peek a = w := by
  simp [State.peek_poke]

theorem State.peek_poke_ne (s : State) {a i : Nat} (h : i ≠ a) (w : Byte) :
    (s.poke a w).peek i = s.peek i := by
  simp [State.peek_poke, h]

/-! ## Many stores -/

@[simp] theorem State.pokeAll_nil (s : State) : s.pokeAll [] = s := rfl
@[simp] theorem State.pokeAll_cons (s : State) (c : Store) (l : List Store) :
    s.pokeAll (c :: l) = (s.poke c.1 c.2).pokeAll l := rfl

/-- Stores change memory and nothing else. -/
theorem State.pokeAll_eq (s : State) (l : List Store) :
    s.pokeAll l = { s with mem := (s.pokeAll l).mem } := by
  induction l generalizing s with
  | nil => rfl
  | cons c l ih => rw [State.pokeAll_cons, ih]; rfl

/-- A byte that no store addresses is as before. -/
theorem State.peek_pokeAll_of_notMem (s : State) (l : List Store) {i : Nat} (h : i ∉ l.map Prod.fst) :
    (s.pokeAll l).peek i = s.peek i := by
  induction l generalizing s with
  | nil => rfl
  | cons c l ih =>
    simp only [List.map_cons, List.mem_cons, not_or] at h
    rw [State.pokeAll_cons, ih _ h.2, State.peek_poke_ne _ h.1]

/-- Stores to distinct addresses each leave their byte. -/
theorem State.peek_pokeAll_of_mem (s : State) (l : List Store) (hd : (l.map Prod.fst).Nodup) {c : Store}
    (h : c ∈ l) : (s.pokeAll l).peek c.1 = c.2 := by
  induction l generalizing s with
  | nil => simp at h
  | cons d l ih =>
    simp only [List.map_cons, List.nodup_cons] at hd
    rw [State.pokeAll_cons]
    rcases List.mem_cons.mp h with rfl | h
    · rw [State.peek_pokeAll_of_notMem _ _ hd.1, State.peek_poke_same]
    · exact ih _ hd.2 h

/-- The stored byte, where every store writes the same value. -/
theorem State.peek_pokeAll_const (s : State) (as : List Nat) (w : Byte) {i : Nat} (h : i ∈ as) :
    (s.pokeAll (as.map (fun a => (a, w)))).peek i = w := by
  induction as generalizing s with
  | nil => simp at h
  | cons a as ih =>
    simp only [List.map_cons, State.pokeAll_cons]
    by_cases hi : i ∈ as
    · exact ih _ hi
    · obtain rfl : i = a := by simpa [hi] using h
      rw [State.peek_pokeAll_of_notMem, State.peek_poke_same]
      simpa using hi

/-! ## The canonical form -/

theorem Memory.mem_insert {a : Nat} {w : Byte} {m : List Host.Cell} {c : Host.Cell}
    (h : c ∈ Memory.insert a w m) : c = (a, w) ∨ c ∈ m := by
  induction m with
  | nil => simpa [Memory.insert] using h
  | cons d rest ih =>
    obtain ⟨b, u⟩ := d
    simp only [Memory.insert] at h
    split at h
    · simpa using h
    · split at h
      · rcases List.mem_cons.mp h with h | h
        · exact .inl h
        · exact .inr (List.mem_cons_of_mem _ h)
      · rcases List.mem_cons.mp h with h | h
        · exact .inr (h ▸ List.mem_cons_self)
        · exact (ih h).imp_right (List.mem_cons_of_mem _)

theorem Memory.rising_cons {a : Nat} {w : Byte} {m : List Host.Cell} :
    Memory.rising ((a, w) :: m) = true ↔ (∀ c ∈ m, a < c.1) ∧ Memory.rising m = true := by
  simp [Memory.rising]

theorem Memory.rising_insert {a : Nat} {w : Byte} {m : List Host.Cell} (h : Memory.rising m = true) :
    Memory.rising (Memory.insert a w m) = true := by
  induction m with
  | nil => simp [Memory.insert, Memory.rising]
  | cons d rest ih =>
    obtain ⟨b, u⟩ := d
    obtain ⟨hb, hr⟩ := Memory.rising_cons.mp h
    simp only [Memory.insert]
    split
    · rename_i hab
      refine Memory.rising_cons.mpr ⟨fun c hc => ?_, h⟩
      rcases List.mem_cons.mp hc with rfl | hc
      · exact hab
      · exact lt_trans hab (hb c hc)
    · split
      · rename_i hab
        exact Memory.rising_cons.mpr ⟨fun c hc => hab ▸ hb c hc, hr⟩
      · refine Memory.rising_cons.mpr ⟨fun c hc => ?_, ih hr⟩
        rcases Memory.mem_insert hc with rfl | hc
        · show b < a
          omega
        · exact hb c hc

theorem Memory.rising_erase {a : Nat} {m : List Host.Cell} (h : Memory.rising m = true) :
    Memory.rising (Memory.erase a m) = true := by
  induction m with
  | nil => rfl
  | cons d rest ih =>
    obtain ⟨b, u⟩ := d
    obtain ⟨hb, hr⟩ := Memory.rising_cons.mp h
    simp only [Memory.erase, List.filter_cons] at ih ⊢
    split
    · exact Memory.rising_cons.mpr ⟨fun c hc => hb c (List.mem_filter.mp hc).1, ih hr⟩
    · exact ih hr

/-- The canonical form, spelled out. -/
theorem Memory.wf_iff {p : Config.Params} {m : List Host.Cell} :
    Memory.wf p m = true ↔
      Memory.rising m = true ∧ ∀ c ∈ m, c.1 < Config.memSize ∧ c.2 ≠ resetByte p c.1 := by
  simp [Memory.wf]

/-- A write at an address that exists keeps the canonical form. -/
theorem State.wf_poke {s : State} {a : Nat} {w : Byte} (ha : a < Config.memSize)
    (h : Memory.wf s.params s.mem = true) : Memory.wf (s.poke a w).params (s.poke a w).mem = true := by
  obtain ⟨hr, hm⟩ := Memory.wf_iff.mp h
  rw [State.poke_params, State.poke_mem]
  split
  · exact Memory.wf_iff.mpr ⟨Memory.rising_erase hr, fun c hc => hm c (List.mem_filter.mp hc).1⟩
  · rename_i hw
    refine Memory.wf_iff.mpr ⟨Memory.rising_insert hr, fun c hc => ?_⟩
    rcases Memory.mem_insert hc with rfl | hc
    · exact ⟨ha, hw⟩
    · exact hm c hc

/-- A write at a writable address keeps memory canonical and every listed address writable. -/
theorem State.memOk_poke {s : State} {a : Nat} {w : Byte} (hlo : Config.progBase ≤ a)
    (hhi : a < Config.memSize) (h : s.MemOk) : (s.poke a w).MemOk := by
  refine ⟨State.wf_poke hhi h.1, fun c hc => ?_⟩
  rw [State.poke_mem] at hc
  split at hc
  · exact h.2 c (List.mem_filter.mp hc).1
  · rcases Memory.mem_insert hc with rfl | hc
    · exact hlo
    · exact h.2 c hc

/-- Stores at writable addresses keep it too. -/
theorem State.memOk_pokeAll {s : State} {l : List Store}
    (hl : ∀ c ∈ l, Config.progBase ≤ c.1 ∧ c.1 < Config.memSize) (h : s.MemOk) : (s.pokeAll l).MemOk := by
  induction l generalizing s with
  | nil => exact h
  | cons c l ih =>
    have hc := hl c List.mem_cons_self
    exact ih (fun d hd => hl d (List.mem_cons_of_mem _ hd)) (State.memOk_poke hc.1 hc.2 h)

/-- The reset memory has the canonical form. -/
theorem State.reset_memOk : State.reset.MemOk := ⟨rfl, fun c hc => by simp [State.reset] at hc⟩

/-- Below 0x200 nothing is listed, so memory reads as at reset there (spec/10_state.md R41). -/
theorem State.MemOk.peek_low {s : State} (h : s.MemOk) {a : Nat} (ha : a < Config.progBase) :
    s.peek a = resetByte s.params a := by
  have hno : ∀ m : List Host.Cell, (∀ c ∈ m, Config.progBase ≤ c.1) → Memory.lookup m a = none := by
    intro m
    induction m with
    | nil => intro _; rfl
    | cons c rest ih =>
      intro hm
      have hc := hm c List.mem_cons_self
      rw [Memory.lookup, if_neg (by omega)]
      exact ih fun d hd => hm d (List.mem_cons_of_mem _ hd)
  rw [State.peek, hno _ h.2, Option.getD_none]

/-! ## The address checks -/

/-- All writes pass exactly when every address is writable (spec/20_memory.md R52). -/
theorem writeChecks_none {as : List Nat} :
    writeChecks as = none ↔ ∀ a ∈ as, Config.progBase ≤ a ∧ a < Config.memSize := by
  simp only [writeChecks, List.findSome?_eq_none_iff, writeCheck]
  refine forall₂_congr fun a _ => ?_
  split
  · simp; omega
  · split
    · simp; omega
    · simp; omega

/-- All reads pass exactly when every address exists (spec/20_memory.md R51). -/
theorem readChecks_none {as : List Nat} :
    readChecks as = none ↔ ∀ a ∈ as, a < Config.memSize := by
  simp only [readChecks, List.findSome?_eq_none_iff, readCheck]
  refine forall₂_congr fun a _ => ?_
  split
  · simp; omega
  · simp; omega

end Sys2Proof.Machine
end

