-- ==== Sys2Proof/Laws/Ops.lean ====
section
/-! SUPPORT. What each shared operation of the meanings can do, said once: flag writes, skips, register loads,
and the frame's own laws. -/

namespace Sys2Proof.Machine

/-! ## Frames -/

/-- Nothing changed. -/
theorem Frame.refl (regs : List Reg) (stored : List Nat) (parts : List Part) (s : State) :
    Frame regs stored parts s s where
  regs _ _ := rfl
  mem _ _ := rfl
  pc _ := rfl
  idx _ := rfl
  dt _ := rfl
  st _ := rfl
  callStack _ := ⟨rfl, rfl⟩
  keyDown _ := rfl
  waitingForKey _ := rfl
  keyWaitSatisfied _ := rfl
  redrawPending _ := rfl
  running _ := rfl
  fault _ := rfl
  params _ := rfl
  draws _ := rfl
  schedule _ := ⟨rfl, rfl⟩
  loadOpen _ := rfl

/-- Two effects one after the other leave alone what both leave alone. -/
theorem Frame.trans {regs : List Reg} {stored : List Nat} {parts : List Part} {s t u : State}
    (h : Frame regs stored parts s t) (k : Frame regs stored parts t u) : Frame regs stored parts s u where
  regs r hr := (k.regs r hr).trans (h.regs r hr)
  mem a ha := (k.mem a ha).trans (h.mem a ha)
  pc hp := (k.pc hp).trans (h.pc hp)
  idx hp := (k.idx hp).trans (h.idx hp)
  dt hp := (k.dt hp).trans (h.dt hp)
  st hp := (k.st hp).trans (h.st hp)
  callStack hp := ⟨(k.callStack hp).1.trans (h.callStack hp).1, (k.callStack hp).2.trans (h.callStack hp).2⟩
  keyDown hp := (k.keyDown hp).trans (h.keyDown hp)
  waitingForKey hp := (k.waitingForKey hp).trans (h.waitingForKey hp)
  keyWaitSatisfied hp := (k.keyWaitSatisfied hp).trans (h.keyWaitSatisfied hp)
  redrawPending hp := (k.redrawPending hp).trans (h.redrawPending hp)
  running hp := (k.running hp).trans (h.running hp)
  fault hp := (k.fault hp).trans (h.fault hp)
  params hp := (k.params hp).trans (h.params hp)
  draws hp := (k.draws hp).trans (h.draws hp)
  schedule hp := ⟨(k.schedule hp).1.trans (h.schedule hp).1, (k.schedule hp).2.trans (h.schedule hp).2⟩
  loadOpen hp := (k.loadOpen hp).trans (h.loadOpen hp)

/-- A register write changes that register. -/
theorem Frame.setV {regs : List Reg} {stored : List Nat} {parts : List Part} {x : Reg} (hx : x ∈ regs)
    (b : Byte) (s : State) : Frame regs stored parts s (s.setV x b) :=
  { Frame.refl regs stored parts s with
    regs := fun _ hr => State.V_setV_ne s (ne_of_mem_of_not_mem hx hr).symm b }

/-- A store changes the addressed byte. -/
theorem Frame.poke {regs : List Reg} {stored : List Nat} {parts : List Part} {a : Nat} (ha : a ∈ stored)
    (w : Byte) (s : State) : Frame regs stored parts s (s.poke a w) :=
  { Frame.refl regs stored parts s with
    mem := fun _ hi => State.peek_poke_ne s (ne_of_mem_of_not_mem ha hi).symm w }

/-- Stores change the addressed bytes. -/
theorem Frame.pokeAll {regs : List Reg} {stored : List Nat} {parts : List Part} {l : List Store}
    (hl : ∀ c ∈ l, c.1 ∈ stored) (s : State) : Frame regs stored parts s (s.pokeAll l) := by
  induction l generalizing s with
  | nil => exact Frame.refl ..
  | cons c l ih =>
    exact (Frame.poke (hl c List.mem_cons_self) c.2 s).trans
      (ih (fun d hd => hl d (List.mem_cons_of_mem _ hd)) _)

/-! ## Writes with a flag -/

/-- The registers after a value and a flag were written in the order given: with x = F the last write decides VF
(spec/10_state.md R22). -/
theorem State.V_writeWithFlag (s : State) (order : Config.SubWriteOrder) (x y : Reg) (v : Byte) (f : Bool) :
    (s.writeWithFlag order x v f).V y =
      match order with
      | .flagThenValue => if y = x then v else if y = vf then flagByte f else s.V y
      | .valueThenFlag => if y = vf then flagByte f else if y = x then v else s.V y := by
  cases order <;> simp [State.writeWithFlag, State.V_setV]

/-- A write with a flag changes its destination and VF only. -/
theorem Frame.writeWithFlag {stored : List Nat} {parts : List Part} (order : Config.SubWriteOrder) (x : Reg)
    (v : Byte) (f : Bool) (s : State) : Frame [x, vf] stored parts s (s.writeWithFlag order x v f) := by
  cases order
  · exact (Frame.setV (by simp) _ s).trans (Frame.setV (by simp) _ _)
  · exact (Frame.setV (by simp) _ s).trans (Frame.setV (by simp) _ _)

/-! ## Arithmetic in its plain form -/

theorem addByte_eq (a b : Byte) : addByte a b = a + b := by
  apply BitVec.eq_of_toNat_eq
  simp [addByte, trunc8]

theorem subByte_eq (a b : Byte) : subByte a b = a - b := by
  apply BitVec.eq_of_toNat_eq
  have := a.isLt
  have := b.isLt
  simp only [subByte, trunc8, BitVec.toNat_ofNat, BitVec.toNat_sub]
  congr 1
  omega

/-! ## Loads -/

theorem mem_allRegs (r : Reg) : r ∈ allRegs := by
  revert r
  decide

theorem mem_regsUpTo {x r : Reg} : r ∈ regsUpTo x ↔ r.val ≤ x.val := by
  simp [regsUpTo, mem_allRegs]

theorem nodup_regsUpTo (x : Reg) : (regsUpTo x).Nodup := List.Nodup.filter _ (by decide)

@[simp] theorem State.loadReg_peek (s : State) (k : Reg) (a : Nat) : (s.loadReg k).peek a = s.peek a := rfl

/-- Register loads: a register in the list holds the byte of its address, any other is as before (R114). -/
theorem State.V_foldl_loadReg (ks : List Reg) (s : State) (r : Reg) :
    (ks.foldl State.loadReg s).V r = if r ∈ ks then s.peek (s.effAddr r.val) else s.V r := by
  induction ks generalizing s with
  | nil => simp
  | cons k ks ih =>
    rw [List.foldl_cons, ih, State.loadReg_peek]
    by_cases hr : r ∈ ks
    · simp [hr, State.loadReg, State.effAddr]
    · by_cases hk : r = k
      · subst hk
        simp [hr, State.loadReg]
      · simp [hr, hk, State.loadReg, State.V_setV_ne]

/-- Register loads change the listed registers only. -/
theorem Frame.loadRegs {regs : List Reg} {stored : List Nat} {parts : List Part} {ks : List Reg}
    (hk : ∀ k ∈ ks, k ∈ regs) (s : State) : Frame regs stored parts s (ks.foldl State.loadReg s) := by
  induction ks generalizing s with
  | nil => exact Frame.refl ..
  | cons k ks ih =>
    exact (Frame.setV (hk k List.mem_cons_self) _ s).trans
      (ih (fun d hd => hk d (List.mem_cons_of_mem _ hd)) _)

/-! ## Effective addresses -/

theorem State.mem_effAddrs {s : State} {n a : Nat} : a ∈ s.effAddrs n ↔ ∃ k < n, s.effAddr k = a := by
  simp [State.effAddrs]

/-- The addresses of a block are all in range exactly when its ends are. -/
theorem State.effAddrs_range {s : State} {n lo hi : Nat} (hn : 0 < n) :
    (∀ a ∈ s.effAddrs n, lo ≤ a ∧ a < hi) ↔ lo ≤ s.idx.toNat ∧ s.idx.toNat + n ≤ hi := by
  simp only [State.mem_effAddrs, State.effAddr]
  constructor
  · intro h
    have h0 := h _ ⟨0, hn, rfl⟩
    have h1 := h _ ⟨n - 1, by omega, rfl⟩
    omega
  · rintro h a ⟨k, hk, rfl⟩
    omega

/-! ## Checking a block of addresses from I up -/

/-- The first failing address of a block is the one reported. -/
theorem State.first_failure (s : State) {check : Nat → Option Failure} {n k : Nat} {f : Failure} (hk : k < n)
    (hb : ∀ j < k, check (s.effAddr j) = none) (hf : check (s.effAddr k) = some f) :
    (s.effAddrs n).findSome? check = some f := by
  obtain ⟨m, rfl⟩ : ∃ m, n = k + (m + 1) := ⟨n - k - 1, by omega⟩
  have h : ((List.range k).map s.effAddr).findSome? check = none :=
    List.findSome?_eq_none_iff.mpr (by simpa using hb)
  rw [State.effAddrs, List.range_add, List.map_append, List.findSome?_append, h, Option.none_or,
    List.range_succ_eq_map]
  simp [hf]

/-- The check of a stored block, in closed form (spec/20_memory.md R52, R54). -/
theorem State.writeChecks_block (s : State) {n : Nat} (hn : 0 < n) :
    writeChecks (s.effAddrs n) =
      if 0x1000 ≤ s.idx.toNat then some (.memoryOutOfRange, s.idx.toNat)
      else if s.idx.toNat < 0x200 then some (.protectedWrite, s.idx.toNat)
      else if 0x1000 < s.idx.toNat + n then some (.memoryOutOfRange, 0x1000)
      else none := by
  split
  · rename_i h
    exact s.first_failure hn (by simp) (by simp [writeCheck, State.effAddr, Config.memSize, h])
  · split
    · rename_i h h2
      exact s.first_failure hn (by simp)
        (by simp [writeCheck, State.effAddr, Config.memSize, Config.progBase, h, h2])
    · split
      · have he : s.effAddr (0x1000 - s.idx.toNat) = 0x1000 := by unfold State.effAddr; omega
        refine s.first_failure (k := 0x1000 - s.idx.toNat) (by omega) ?_ (by rw [he]; rfl)
        intro j hj
        unfold writeCheck State.effAddr Config.memSize Config.progBase
        rw [if_neg (by omega), if_neg (by omega)]
      · rw [writeChecks_none, State.effAddrs_range hn]
        unfold Config.progBase Config.memSize
        omega

/-- The check of a loaded block, in closed form; an empty block passes (spec/20_memory.md R51, R54). -/
theorem State.readChecks_block (s : State) (n : Nat) :
    readChecks (s.effAddrs n) =
      if 0 < n ∧ 0x1000 ≤ s.idx.toNat then some (.memoryOutOfRange, s.idx.toNat)
      else if 0 < n ∧ 0x1000 < s.idx.toNat + n then some (.memoryOutOfRange, 0x1000)
      else none := by
  split
  · rename_i h
    exact s.first_failure h.1 (by simp) (by simp [readCheck, State.effAddr, Config.memSize, h])
  · split
    · have he : s.effAddr (0x1000 - s.idx.toNat) = 0x1000 := by unfold State.effAddr; omega
      refine s.first_failure (k := 0x1000 - s.idx.toNat) (by omega) ?_ (by rw [he]; rfl)
      intro j hj
      unfold readCheck State.effAddr Config.memSize
      rw [if_neg (by omega)]
    · rw [readChecks_none]
      intro a ha
      obtain ⟨k, hk, rfl⟩ := State.mem_effAddrs.mp ha
      unfold Config.memSize State.effAddr
      omega

/-- A stored register is read back at its address (spec/43_index_memory.md R113). -/
theorem State.peek_storeRegs (s : State) {x k : Reg} (hk : k.val ≤ x.val) :
    (s.pokeAll ((regsUpTo x).map (fun k => (s.effAddr k.val, s.V k)))).peek (s.effAddr k.val) = s.V k := by
  refine State.peek_pokeAll_of_mem s _ ?_ (c := (s.effAddr k.val, s.V k))
    (List.mem_map.mpr ⟨k, mem_regsUpTo.mpr hk, rfl⟩)
  rw [List.map_map]
  refine (nodup_regsUpTo x).map ?_
  intro a b h
  exact Fin.ext (by simpa [State.effAddr] using h)

end Sys2Proof.Machine
end

