-- ==== Sys2Proof/Laws/Cycle.lean ====
section
/-! SUPPORT. What a handler, a cycle and a step can do, said once. -/

namespace Sys2Proof.Machine

/-- Every handler answers a next state: a fault it raises is one too (entry 5). -/
theorem exec_next (i : Instr) (s : State) : ∃ t, exec i s = .next t := by
  cases i <;> exact ⟨_, rfl⟩

/-- A cycle or tick on a live core runs. -/
theorem ifLive_of_live {s : State} (h : s.Live) (op : State → Result) :
    ifLive op s = op (s.setLoadOpen false) := by
  simp [ifLive, h.1, h.2]

/-- A ready core steps by a cycle. -/
theorem step_of_ready {s : State} (h : s.Ready) :
    step s = cycleBody (s.takeMove.setLoadOpen false) := by
  rw [step, nextOperation, h.2]
  exact ifLive_of_live (s := s.takeMove) h.1 cycleBody

/-- The range a fetch accepts (spec/20_memory.md R53). -/
theorem State.fetchOk_iff (s : State) :
    s.fetchOk = true ↔ 0x200 ≤ s.pc.toNat ∧ s.pc.toNat ≤ 0xFFE := by
  rw [State.fetchOk, Bool.and_eq_true, decide_eq_true_eq, decide_eq_true_eq]
  rfl

/-- A cycle or tick that answers a next state found the core live. -/
theorem ifLive_next {s t : State} {op : State → Result} (h : ifLive op s = .next t) :
    s.Live ∧ op (s.setLoadOpen false) = .next t := by
  unfold ifLive at h
  split at h
  · cases h
  · split at h
    · rename_i hf hr
      exact ⟨⟨by simpa using hf, hr⟩, h⟩
    · cases h

/-- Every end of a cycle: a fetch fault, an illegal word, or the handler of the decoded instruction and the end
of the cycle (spec/40_cycle.md R82). -/
theorem cycleBody_cases (s : State) :
    (s.fetchOk = false ∧
      cycleBody s = .next (s.takeFault .fetchOutOfRange s.pc none s.pc.toNat)) ∨
    (s.fetchOk = true ∧ decodeWord s.fetchWord = none ∧
      cycleBody s =
        .next (s.takeFault .illegalInstruction s.pc (some s.fetchWord) s.fetchWord.toNat)) ∨
    (∃ i u, s.fetchOk = true ∧ decodeWord s.fetchWord = some i ∧ exec i s.pcForward = .next u ∧
      cycleBody s = .next (endCycle s.pcForward u)) := by
  unfold cycleBody
  cases hf : s.fetchOk with
  | false => exact .inl ⟨rfl, rfl⟩
  | true =>
    cases hd : decodeWord s.fetchWord with
    | none => exact .inr (.inl ⟨rfl, rfl, rfl⟩)
    | some i =>
      obtain ⟨u, hu⟩ := exec_next i s.pcForward
      refine .inr (.inr ⟨i, u, rfl, rfl, hu, ?_⟩)
      simp only [if_true, hu, finish]

/-- The end of a cycle touches `keyDown` only (spec/40_cycle.md R81). -/
theorem endCycle_cases (before after : State) :
    endCycle before after = after ∨ endCycle before after = after.setKeyDown none := by
  unfold endCycle
  split
  · exact .inl rfl
  · split
    · exact .inr rfl
    · exact .inl rfl

/-- The end of a cycle keeps the fault record (spec/40_cycle.md R80, R81). -/
@[simp] theorem endCycle_fault (before after : State) : (endCycle before after).fault = after.fault := by
  rcases endCycle_cases before after with h | h <;> rw [h]
  rfl

/-- A successful load is a list of stores from 0x200 up (spec/70_reset_and_hazards.md R148). -/
theorem loadProgram_next {rom : Option (List Byte)} {s t : State} (h : loadProgram rom s = .next t) :
    ∃ bytes, rom = some bytes ∧ s.loadOpen = true ∧ 0 < bytes.length ∧ bytes.length ≤ Config.romMax ∧
      t = (s.pokeAll (romStores bytes)).setLoadOpen false := by
  unfold loadProgram at h
  split at h
  · rename_i ho
    split at h
    · cases h
    · rename_i bytes
      split at h
      · cases h
      · split at h
        · cases h
        · cases h
          exact ⟨bytes, rfl, ho, by omega, by omega, rfl⟩
  · cases h

/-- What a step can do when it answers a next state: one case for each move of the host. -/
theorem step_cases {s t : State} (h : step s = .next t) :
    (s.nextMove = .cycle ∧ s.Live ∧ cycleBody (s.takeMove.setLoadOpen false) = .next t) ∨
    (s.nextMove = .tick ∧ s.Live ∧ t = (s.takeMove.setLoadOpen false).tickTimers) ∨
    (s.nextMove = .initMachine ∧ t = initMachine s.takeMove) ∨
    (∃ bytes, s.nextMove = .loadProgram (some bytes) ∧ s.loadOpen = true ∧ 0 < bytes.length ∧
      bytes.length ≤ Config.romMax ∧ t = (s.takeMove.pokeAll (romStores bytes)).setLoadOpen false) ∨
    (∃ k, s.nextMove = .setKey k ∧ t = s.takeMove.setKeyDown k) ∨
    (∃ k, s.nextMove = .keyReport k ∧ s.waitingForKey = true ∧
      t = (s.takeMove.setKeyDown k).setSatisfied true) ∨
    (s.nextMove = .ackRedraw ∧ t = s.takeMove.setRedraw false) ∨
    (s.nextMove = .quit ∧ t = s.takeMove.setRunning false) := by
  have h : hostMove s.nextMove s.takeMove = .next t := h
  cases hm : s.nextMove <;> rw [hm] at h
  case cycle => exact .inl ⟨rfl, ifLive_next h⟩
  case tick =>
    obtain ⟨hl, h⟩ := ifLive_next (s := s.takeMove) (op := fun u => .next u.tickTimers) h
    exact .inr (.inl ⟨rfl, hl, (Host.Outcome.next.inj h).symm⟩)
  case initMachine => exact .inr (.inr (.inl ⟨rfl, (Host.Outcome.next.inj h).symm⟩))
  case loadProgram rom =>
    obtain ⟨bytes, rfl, hb⟩ := loadProgram_next (s := s.takeMove) h
    exact .inr (.inr (.inr (.inl ⟨bytes, rfl, hb⟩)))
  case setKey k => exact .inr (.inr (.inr (.inr (.inl ⟨k, rfl, (Host.Outcome.next.inj h).symm⟩))))
  case keyReport k =>
    have h : keyReport k s.takeMove = .next t := h
    unfold keyReport at h
    split at h
    · rename_i hw
      exact .inr (.inr (.inr (.inr (.inr (.inl ⟨k, rfl, hw, (Host.Outcome.next.inj h).symm⟩)))))
    · cases h
  case ackRedraw =>
    exact .inr (.inr (.inr (.inr (.inr (.inr (.inl ⟨rfl, (Host.Outcome.next.inj h).symm⟩))))))
  case quit =>
    exact .inr (.inr (.inr (.inr (.inr (.inr (.inr ⟨rfl, (Host.Outcome.next.inj h).symm⟩))))))

/-! ## Runs -/

/-- A run goes on after a step. -/
theorem run_of_next {s t : State} (h : step s = .next t) (k : Nat) :
    Host.Core.run Sys2Proof.core (k + 1) s = Host.Core.run Sys2Proof.core k t := by
  have h : Sys2Proof.core.step s = .next t := h
  simp only [Host.Core.run, h]

/-- A run that answers a next state began with a step that did. -/
theorem step_of_run {s t : State} {k : Nat} (h : Host.Core.run Sys2Proof.core (k + 1) s = .next t) :
    ∃ u, step s = .next u ∧ Host.Core.run Sys2Proof.core k u = .next t := by
  simp only [Host.Core.run] at h
  split at h
  · rename_i u hu
    exact ⟨u, hu, h⟩
  · cases h
  · cases h

end Sys2Proof.Machine
end

