-- ==== Sys2Proof/Laws/Draw.lean ====
section
/-! SUPPORT. Drawing as a list of plotted pixels: a draw plots each of its pixels at most once, so the pixels it
plots are flipped, every other pixel stays, and VF tells whether a set pixel was plotted (spec/44_display.md). -/

namespace Sys2Proof.Machine

/-! ## One pixel -/

/-- On a 64-pixel row, address and bit identify the pixel (spec/20_memory.md R45). -/
theorem fb_inj {px py qx qy : Nat} (hp : px < 64) (hq : qx < 64) (ha : fbAddr px py = fbAddr qx qy)
    (hb : fbBit px = fbBit qx) : px = qx ∧ py = qy := by
  simp only [fbAddr, fbBit, Config.fbBase, Config.rowBytes] at ha hb
  omega

theorem fbBit_lt (px : Nat) : fbBit px < 8 := by
  simp only [fbBit]
  omega

/-- The framebuffer holds every pixel of the screen (R45). -/
theorem fbAddr_range {px py : Nat} (hx : px < 64) (hy : py < 32) :
    Config.fbBase ≤ fbAddr px py ∧ fbAddr px py < Config.memSize := by
  simp only [fbAddr, Config.fbBase, Config.rowBytes, Config.memSize]
  omega

theorem fbMask_eq (px : Nat) : fbMask px = BitVec.twoPow 8 (fbBit px) := rfl

/-- Under the mask a byte is zero exactly when the pixel's bit is. -/
theorem and_fbMask_eq_zero (b : Byte) (px : Nat) : b &&& fbMask px = 0 ↔ b.getLsbD (fbBit px) = false := by
  rw [fbMask_eq, BitVec.and_twoPow]
  have h8 := fbBit_lt px
  cases b.getLsbD (fbBit px) with
  | false => simp
  | true =>
    simp only [if_true, Bool.true_eq_false, iff_false]
    intro h
    have := congrArg (fun v : Byte => v.getLsbD (fbBit px)) h
    simp [h8] at this

theorem xor_fbMask_getLsbD (b : Byte) (px j : Nat) :
    (b ^^^ fbMask px).getLsbD j = (b.getLsbD j ^^ decide (fbBit px = j)) := by
  have h8 := fbBit_lt px
  rw [fbMask_eq, BitVec.getLsbD_xor, BitVec.getLsbD_twoPow]
  simp [h8]

/-- Plotting flips its pixel and no other. -/
theorem State.pixel_plot (s : State) {p : Nat × Nat} {qx qy : Nat} (hp : p.1 < 64) (hq : qx < 64) :
    (s.plot p).pixel qx qy = if (qx, qy) = p then !s.pixel qx qy else s.pixel qx qy := by
  have hpeek : ∀ a, (if s.peek (fbAddr p.1 p.2) &&& fbMask p.1 = 0 then s else s.setV vf 1).peek a
      = s.peek a := by
    intro a
    split <;> rfl
  simp only [State.pixel, State.plot, State.peek_poke, hpeek]
  by_cases h : (qx, qy) = p
  · subst h
    rw [if_pos rfl, if_pos rfl, xor_fbMask_getLsbD]
    simp
  · rw [if_neg h]
    split
    · rename_i ha
      rw [xor_fbMask_getLsbD, ← ha]
      have : ¬ fbBit p.1 = fbBit qx := by
        intro hb
        obtain ⟨h1, h2⟩ := fb_inj hq hp ha hb.symm
        exact h (Prod.ext h1 h2)
      simp [this]
    · rfl

/-- Plotting a set pixel sets VF; plotting a clear one leaves it. -/
theorem State.V_plot (s : State) (p : Nat × Nat) (r : Reg) :
    (s.plot p).V r = if r = vf ∧ s.pixel p.1 p.2 = true then 1 else s.V r := by
  simp only [State.plot, State.poke_V, State.pixel]
  by_cases hz : s.peek (fbAddr p.1 p.2) &&& fbMask p.1 = 0
  · rw [if_pos hz]
    rw [and_fbMask_eq_zero] at hz
    simp [hz]
  · rw [if_neg hz]
    rw [and_fbMask_eq_zero, Bool.not_eq_false] at hz
    simp [hz, State.V_setV]

/-- Plotting changes VF and the pixel's byte only. -/
theorem Frame.plot {regs : List Reg} {stored : List Nat} {parts : List Part} {p : Nat × Nat}
    (hr : vf ∈ regs) (hp : fbAddr p.1 p.2 ∈ stored) (s : State) : Frame regs stored parts s (s.plot p) := by
  simp only [State.plot]
  split
  · exact Frame.poke hp _ s
  · exact (Frame.setV hr _ s).trans (Frame.poke hp _ _)

/-! ## Many pixels -/

/-- Plot the pixels of a list in order. -/
def State.plotAll (pts : List (Nat × Nat)) (s : State) : State := pts.foldl (fun t p => t.plot p) s

@[simp] theorem State.plotAll_nil (s : State) : s.plotAll [] = s := rfl
@[simp] theorem State.plotAll_cons (s : State) (p : Nat × Nat) (l : List (Nat × Nat)) :
    s.plotAll (p :: l) = (s.plot p).plotAll l := rfl
theorem State.plotAll_append (s : State) (l m : List (Nat × Nat)) :
    s.plotAll (l ++ m) = (s.plotAll l).plotAll m := by simp [State.plotAll]

theorem Frame.plotAll {regs : List Reg} {stored : List Nat} {parts : List Part} {pts : List (Nat × Nat)}
    (hr : vf ∈ regs) (hp : ∀ p ∈ pts, fbAddr p.1 p.2 ∈ stored) (s : State) :
    Frame regs stored parts s (s.plotAll pts) := by
  induction pts generalizing s with
  | nil => exact Frame.refl ..
  | cons p l ih =>
    exact (Frame.plot hr (hp p List.mem_cons_self) s).trans
      (ih (fun d hd => hp d (List.mem_cons_of_mem _ hd)) _)

/-- Plotting distinct pixels flips exactly those. -/
theorem State.pixel_plotAll (s : State) {pts : List (Nat × Nat)} (hx : ∀ p ∈ pts, p.1 < 64)
    (hd : pts.Nodup) {qx qy : Nat} (hq : qx < 64) :
    (s.plotAll pts).pixel qx qy = if (qx, qy) ∈ pts then !s.pixel qx qy else s.pixel qx qy := by
  induction pts generalizing s with
  | nil => simp
  | cons p l ih =>
    obtain ⟨hpl, hd⟩ := List.nodup_cons.mp hd
    rw [State.plotAll_cons, ih _ (fun d hd => hx d (List.mem_cons_of_mem _ hd)) hd,
      State.pixel_plot s (hx p List.mem_cons_self) hq]
    by_cases h : (qx, qy) = p
    · simp [h, hpl]
    · simp [h]

/-- Plotting distinct pixels sets VF exactly when one of them was set before. -/
theorem State.V_plotAll (s : State) {pts : List (Nat × Nat)} (hx : ∀ p ∈ pts, p.1 < 64) (hd : pts.Nodup)
    (r : Reg) :
    (s.plotAll pts).V r = if r = vf ∧ ∃ p ∈ pts, s.pixel p.1 p.2 = true then 1 else s.V r := by
  induction pts generalizing s with
  | nil => simp
  | cons p l ih =>
    obtain ⟨hpl, hd⟩ := List.nodup_cons.mp hd
    have hx' := fun d hd => hx d (List.mem_cons_of_mem p hd)
    rw [State.plotAll_cons, ih _ hx' hd, State.V_plot]
    have hsame : ∀ q ∈ l, (s.plot p).pixel q.1 q.2 = s.pixel q.1 q.2 := by
      intro q hq
      rw [State.pixel_plot s (hx p List.mem_cons_self) (hx' q hq)]
      exact if_neg (ne_of_mem_of_not_mem hq hpl)
    have hex : (∃ q ∈ l, (s.plot p).pixel q.1 q.2 = true) ↔ ∃ q ∈ l, s.pixel q.1 q.2 = true := by
      constructor <;> rintro ⟨q, hq, h⟩
      · exact ⟨q, hq, hsame q hq ▸ h⟩
      · exact ⟨q, hq, (hsame q hq).symm ▸ h⟩
    simp only [hex, List.exists_mem_cons_iff]
    by_cases hr : r = vf <;> by_cases h1 : s.pixel p.1 p.2 = true <;>
      by_cases h2 : ∃ q ∈ l, s.pixel q.1 q.2 = true <;> simp [hr, h1, h2]

/-! ## The pixels of a sprite -/

/-- The pixels sprite row r of byte `sprite` plots, from column 0 to 7 (spec/44_display.md R117). -/
def rowPoints (edge : Config.DrawEdge) (x0 y0 r : Nat) (sprite : Byte) : List (Nat × Nat) :=
  (List.range 8).filterMap (fun b => if spriteBit sprite b then spritePos edge x0 y0 r b else none)

theorem mem_rowPoints {edge : Config.DrawEdge} {x0 y0 r : Nat} {sprite : Byte} {p : Nat × Nat} :
    p ∈ rowPoints edge x0 y0 r sprite ↔
      ∃ b < 8, spriteBit sprite b = true ∧ spritePos edge x0 y0 r b = some p := by
  simp [rowPoints]

/-- A sprite position lies on the screen (R116). -/
theorem spritePos_range {edge : Config.DrawEdge} {x0 y0 r b : Nat} {p : Nat × Nat}
    (h : spritePos edge x0 y0 r b = some p) : p.1 < 64 ∧ p.2 < 32 := by
  cases edge with
  | wrap =>
    cases h
    exact ⟨Nat.mod_lt _ (by decide), Nat.mod_lt _ (by decide)⟩
  | clip =>
    simp only [spritePos] at h
    split at h
    · cases h
      assumption
    · cases h

/-- No two bits of a sprite of at most 32 rows share a pixel (R117). -/
theorem spritePos_inj {edge : Config.DrawEdge} {x0 y0 r b r' b' : Nat} {p : Nat × Nat} (hr : r < 32)
    (hr' : r' < 32) (hb : b < 8) (hb' : b' < 8) (h : spritePos edge x0 y0 r b = some p)
    (h' : spritePos edge x0 y0 r' b' = some p) : r = r' ∧ b = b' := by
  cases edge with
  | wrap =>
    simp only [spritePos, Config.screenW, Config.screenH, Option.some.injEq] at h h'
    have e := h.trans h'.symm
    rw [Prod.mk.injEq] at e
    omega
  | clip =>
    simp only [spritePos] at h h'
    split at h
    · split at h'
      · have e := (Option.some.inj h).trans (Option.some.inj h').symm
        rw [Prod.mk.injEq] at e
        omega
      · cases h'
    · cases h

theorem nodup_rowPoints (edge : Config.DrawEdge) (x0 y0 r : Nat) (hr : r < 32) (sprite : Byte) :
    (rowPoints edge x0 y0 r sprite).Nodup := by
  refine List.pairwise_filterMap.mpr (List.Pairwise.imp_of_mem ?_ (List.nodup_range (n := 8)))
  intro b b' hb hb' hne p hp p' hp' heq
  subst heq
  rw [Option.ite_none_right_eq_some] at hp hp'
  exact hne (spritePos_inj hr hr (List.mem_range.mp hb) (List.mem_range.mp hb') hp.2 hp'.2).2

/-- Drawing a row is plotting its pixels. -/
theorem State.foldl_drawBit (x0 y0 r : Nat) (sprite : Byte) (bs : List Nat) (s : State) :
    bs.foldl (State.drawBit x0 y0 r sprite) s =
      s.plotAll (bs.filterMap
        (fun b => if spriteBit sprite b then spritePos s.params.drawEdge x0 y0 r b else none)) := by
  induction bs generalizing s with
  | nil => rfl
  | cons b bs ih =>
    have hp : (State.drawBit x0 y0 r sprite s b).params = s.params := by
      simp only [State.drawBit]
      split
      · split
        · exact (Frame.plot (regs := [vf]) (parts := []) (by simp) (List.mem_singleton.mpr rfl) s).params (by simp)
        · rfl
      · rfl
    rw [List.foldl_cons, ih, hp, List.filterMap_cons]
    simp only [State.drawBit]
    cases spriteBit sprite b with
    | false => rfl
    | true =>
      simp only [if_true]
      cases spritePos s.params.drawEdge x0 y0 r b with
      | none => rfl
      | some p => rfl

theorem State.drawRow_eq (x0 y0 r : Nat) (s : State) :
    s.drawRow x0 y0 r = s.plotAll (rowPoints s.params.drawEdge x0 y0 r (s.peek (s.effAddr r))) :=
  State.foldl_drawBit ..

@[simp] theorem State.drawRows_zero (x0 y0 : Nat) (s : State) : s.drawRows x0 y0 0 = s := rfl

theorem State.drawRows_succ (x0 y0 n : Nat) (s : State) :
    s.drawRows x0 y0 (n + 1) = (s.drawRows x0 y0 n).drawRow x0 y0 n := by
  simp [State.drawRows, List.range_succ]

/-- The pixels a draw of n rows plots, in order: each row's byte is read after the rows before it are drawn. -/
def drawnPoints (x0 y0 : Nat) (s : State) : Nat → List (Nat × Nat)
  | 0 => []
  | n + 1 =>
    drawnPoints x0 y0 s n ++
      rowPoints s.params.drawEdge x0 y0 n ((s.drawRows x0 y0 n).peek (s.effAddr n))

/-- Every pixel a draw plots is the position of one of its bits. -/
theorem mem_drawnPoints {x0 y0 n : Nat} {s : State} {p : Nat × Nat} :
    p ∈ drawnPoints x0 y0 s n ↔
      ∃ r < n, ∃ b < 8, spriteBit ((s.drawRows x0 y0 r).peek (s.effAddr r)) b = true ∧
        spritePos s.params.drawEdge x0 y0 r b = some p := by
  induction n with
  | zero => simp [drawnPoints]
  | succ n ih =>
    rw [drawnPoints, List.mem_append, ih, mem_rowPoints]
    constructor
    · rintro (⟨r, hr, h⟩ | h)
      · exact ⟨r, by omega, h⟩
      · exact ⟨n, by omega, h⟩
    · rintro ⟨r, hr, h⟩
      rcases Nat.lt_succ_iff_lt_or_eq.mp hr with hr | rfl
      · exact .inl ⟨r, hr, h⟩
      · exact .inr h

theorem drawnPoints_range {x0 y0 n : Nat} {s : State} {p : Nat × Nat} (h : p ∈ drawnPoints x0 y0 s n) :
    p.1 < 64 ∧ p.2 < 32 := by
  obtain ⟨r, _, b, _, _, hp⟩ := mem_drawnPoints.mp h
  exact spritePos_range hp

/-- A draw of at most 32 rows plots no pixel twice. -/
theorem nodup_drawnPoints (x0 y0 : Nat) (s : State) {n : Nat} (hn : n ≤ 32) :
    (drawnPoints x0 y0 s n).Nodup := by
  induction n with
  | zero => exact List.nodup_nil
  | succ n ih =>
    refine List.nodup_append.mpr ⟨ih (by omega), nodup_rowPoints _ _ _ _ (by omega) _, ?_⟩
    rintro p hp q hq rfl
    obtain ⟨r, hr, b, hb, _, h⟩ := mem_drawnPoints.mp hp
    obtain ⟨b', hb', _, h'⟩ := mem_rowPoints.mp hq
    have := (spritePos_inj (by omega) (by omega) hb hb' h h').1
    omega

/-- A draw of n rows is the plotting of its pixels. -/
theorem State.drawRows_eq_plotAll (x0 y0 n : Nat) (s : State) :
    s.drawRows x0 y0 n = s.plotAll (drawnPoints x0 y0 s n) := by
  induction n with
  | zero => rfl
  | succ n ih =>
    have f : Frame [vf] ((drawnPoints x0 y0 s n).map (fun p => fbAddr p.1 p.2)) [] s (s.drawRows x0 y0 n) := by
      rw [ih]
      exact Frame.plotAll (by simp) (fun p hp => List.mem_map_of_mem hp) s
    rw [State.drawRows_succ, State.drawRow_eq, f.params (by simp), drawnPoints, State.plotAll_append, ← ih]
    simp only [State.effAddr, f.idx (List.not_mem_nil)]

theorem mem_spriteBytes {edge : Config.DrawEdge} {x0 y0 n a : Nat} :
    a ∈ spriteBytes edge x0 y0 n ↔
      ∃ r < n, ∃ b < 8, ∃ p, spritePos edge x0 y0 r b = some p ∧ fbAddr p.1 p.2 = a := by
  simp [spriteBytes]

/-- A draw changes VF and the bytes of its positions only. -/
theorem Frame.drawRows {stored : List Nat} {parts : List Part} {x0 y0 n : Nat} (s : State)
    (hs : ∀ a ∈ spriteBytes s.params.drawEdge x0 y0 n, a ∈ stored) :
    Frame [vf] stored parts s (s.drawRows x0 y0 n) := by
  rw [State.drawRows_eq_plotAll]
  refine Frame.plotAll (by simp) (fun p hp => hs _ ?_) s
  obtain ⟨r, hr, b, hb, _, h⟩ := mem_drawnPoints.mp hp
  exact mem_spriteBytes.mpr ⟨r, hr, b, hb, p, h, rfl⟩

/-- Positions are framebuffer bytes. -/
theorem spriteBytes_range {edge : Config.DrawEdge} {x0 y0 n a : Nat} (h : a ∈ spriteBytes edge x0 y0 n) :
    Config.fbBase ≤ a ∧ a < Config.memSize := by
  obtain ⟨r, _, b, _, p, hp, rfl⟩ := mem_spriteBytes.mp h
  exact fbAddr_range (spritePos_range hp).1 (spritePos_range hp).2

/-- A sprite that lies outside the framebuffer is read as it was before the draw. -/
theorem State.peek_drawRows (x0 y0 n : Nat) (s : State) {a : Nat}
    (ha : a < Config.fbBase ∨ Config.memSize ≤ a) : (s.drawRows x0 y0 n).peek a = s.peek a := by
  refine (Frame.drawRows (parts := []) s (fun _ h => h)).mem a fun h => ?_
  have := spriteBytes_range h
  omega

/-- The framebuffer is 0xF00 to 0xFFF (spec/20_memory.md R45). -/
theorem mem_fbAddrs {a : Nat} : a ∈ fbAddrs ↔ 0xF00 ≤ a ∧ a ≤ 0xFFF := by
  simp only [fbAddrs, Config.fbSize, Config.fbBase, List.mem_map, List.mem_range]
  constructor
  · rintro ⟨k, hk, rfl⟩
    omega
  · intro h
    exact ⟨a - 0xF00, by omega, by omega⟩

end Sys2Proof.Machine
end

