-- ==== Sys2Proof/Laws/Encoding.lean ====
section
/-! SUPPORT. Bit, field and mask laws of the three word formats (spec/30_encoding.md R63, R64). -/

namespace Sys2Proof

/-! ## The bits of an encoded word -/

theorem getLsbD_encNnn (op : BitVec 4) (nnn : Addr) (i : Nat) :
    (encNnn op nnn).getLsbD i = if i < 12 then nnn.getLsbD i else op.getLsbD (i - 12) :=
  BitVec.getLsbD_append

theorem getLsbD_encXnn (op : BitVec 4) (x : Reg) (nn : Byte) (i : Nat) :
    (encXnn op x nn).getLsbD i =
      if i < 8 then nn.getLsbD i
      else if i - 8 < 4 then (ofReg x).getLsbD (i - 8) else op.getLsbD (i - 8 - 4) :=
  BitVec.getLsbD_append.trans (by rw [BitVec.getLsbD_append])

theorem getLsbD_encXyn (op : BitVec 4) (x y : Reg) (n : BitVec 4) (i : Nat) :
    (encXyn op x y n).getLsbD i =
      if i < 8 then (if i < 4 then n.getLsbD i else (ofReg y).getLsbD (i - 4))
      else if i - 8 < 4 then (ofReg x).getLsbD (i - 8) else op.getLsbD (i - 8 - 4) :=
  BitVec.getLsbD_append.trans (by rw [BitVec.getLsbD_append, BitVec.getLsbD_append])

/-! ## Fields of an encoded word -/

@[simp] theorem regOf_ofReg (r : Reg) : regOf (ofReg r) = r := rfl
@[simp] theorem ofReg_regOf (f : BitVec 4) : ofReg (regOf f) = f := rfl

theorem fieldNnn_encNnn (op : BitVec 4) (nnn : Addr) : fieldNnn (encNnn op nnn) = nnn := by
  apply BitVec.eq_of_getLsbD_eq
  intro i hi
  simp only [fieldNnn, BitVec.getLsbD_extractLsb', getLsbD_encNnn]
  simp [hi]

theorem regX_encXnn (op : BitVec 4) (x : Reg) (nn : Byte) : regX (encXnn op x nn) = x := by
  have h : fieldX (encXnn op x nn) = ofReg x := by
    apply BitVec.eq_of_getLsbD_eq
    intro i hi
    simp only [fieldX, BitVec.getLsbD_extractLsb', getLsbD_encXnn]
    simp [hi]
  rw [regX, h, regOf_ofReg]

theorem fieldNn_encXnn (op : BitVec 4) (x : Reg) (nn : Byte) : fieldNn (encXnn op x nn) = nn := by
  apply BitVec.eq_of_getLsbD_eq
  intro i hi
  simp only [fieldNn, BitVec.getLsbD_extractLsb', getLsbD_encXnn]
  simp [hi]

theorem regX_encXyn (op : BitVec 4) (x y : Reg) (n : BitVec 4) : regX (encXyn op x y n) = x := by
  have h : fieldX (encXyn op x y n) = ofReg x := by
    apply BitVec.eq_of_getLsbD_eq
    intro i hi
    simp only [fieldX, BitVec.getLsbD_extractLsb', getLsbD_encXyn]
    simp [hi]
  rw [regX, h, regOf_ofReg]

theorem regY_encXyn (op : BitVec 4) (x y : Reg) (n : BitVec 4) : regY (encXyn op x y n) = y := by
  have h : fieldY (encXyn op x y n) = ofReg y := by
    apply BitVec.eq_of_getLsbD_eq
    intro i hi
    have : 4 + i < 8 := by omega
    simp only [fieldY, BitVec.getLsbD_extractLsb', getLsbD_encXyn]
    simp [hi, this]
  rw [regY, h, regOf_ofReg]

theorem fieldN_encXyn (op : BitVec 4) (x y : Reg) (n : BitVec 4) : fieldN (encXyn op x y n) = n := by
  apply BitVec.eq_of_getLsbD_eq
  intro i hi
  have : i < 8 := by omega
  simp only [fieldN, BitVec.getLsbD_extractLsb', getLsbD_encXyn]
  simp [hi, this]

/-! ## An encoded word under the masks of R67: the masked-out fields become zero -/

theorem encNnn_mask (op : BitVec 4) (nnn : Addr) : encNnn op nnn &&& 0xF000 = encNnn op 0 := by
  apply BitVec.eq_of_getLsbD_eq
  intro i hi
  rw [BitVec.getLsbD_and, getLsbD_encNnn, getLsbD_encNnn]
  interval_cases i <;> simp

theorem encXnn_mask (op : BitVec 4) (x : Reg) (nn : Byte) : encXnn op x nn &&& 0xF000 = encXnn op 0 0 := by
  apply BitVec.eq_of_getLsbD_eq
  intro i hi
  rw [BitVec.getLsbD_and, getLsbD_encXnn, getLsbD_encXnn]
  interval_cases i <;> simp [ofReg]

theorem encXnn_mask_nn (op : BitVec 4) (x : Reg) (nn : Byte) :
    encXnn op x nn &&& 0xF0FF = encXnn op 0 nn := by
  apply BitVec.eq_of_getLsbD_eq
  intro i hi
  rw [BitVec.getLsbD_and, getLsbD_encXnn, getLsbD_encXnn]
  interval_cases i <;> simp [ofReg]

theorem encXyn_mask (op : BitVec 4) (x y : Reg) (n : BitVec 4) :
    encXyn op x y n &&& 0xF000 = encXyn op 0 0 0 := by
  apply BitVec.eq_of_getLsbD_eq
  intro i hi
  rw [BitVec.getLsbD_and, getLsbD_encXyn, getLsbD_encXyn]
  interval_cases i <;> simp [ofReg]

theorem encXyn_mask_n (op : BitVec 4) (x y : Reg) (n : BitVec 4) :
    encXyn op x y n &&& 0xF00F = encXyn op 0 0 n := by
  apply BitVec.eq_of_getLsbD_eq
  intro i hi
  rw [BitVec.getLsbD_and, getLsbD_encXyn, getLsbD_encXyn]
  interval_cases i <;> simp [ofReg]

/-! ## A word of a row is the encoding of its fields -/

theorem encNnn_fields {w : Word} {op : BitVec 4} (h : w &&& 0xF000 = encNnn op 0) :
    encNnn op (fieldNnn w) = w := by
  apply BitVec.eq_of_getLsbD_eq
  intro i hi
  have hh := congrArg (fun v => v.getLsbD i) h
  simp only [BitVec.getLsbD_and, getLsbD_encNnn] at hh ⊢
  simp only [fieldNnn, BitVec.getLsbD_extractLsb']
  interval_cases i <;> simp_all

theorem encXnn_fields {w : Word} {op : BitVec 4} (h : w &&& 0xF000 = encXnn op 0 0) :
    encXnn op (regX w) (fieldNn w) = w := by
  apply BitVec.eq_of_getLsbD_eq
  intro i hi
  have hh := congrArg (fun v => v.getLsbD i) h
  simp only [BitVec.getLsbD_and, getLsbD_encXnn] at hh ⊢
  simp only [fieldNn, regX, ofReg_regOf, fieldX, BitVec.getLsbD_extractLsb']
  interval_cases i <;> simp_all

theorem encXnn_fieldX {w : Word} {op : BitVec 4} {nn : Byte} (h : w &&& 0xF0FF = encXnn op 0 nn) :
    encXnn op (regX w) nn = w := by
  apply BitVec.eq_of_getLsbD_eq
  intro i hi
  have hh := congrArg (fun v => v.getLsbD i) h
  simp only [BitVec.getLsbD_and, getLsbD_encXnn] at hh ⊢
  simp only [regX, ofReg_regOf, fieldX, BitVec.getLsbD_extractLsb']
  interval_cases i <;> simp_all

theorem encXyn_fieldsXy {w : Word} {op n : BitVec 4} (h : w &&& 0xF00F = encXyn op 0 0 n) :
    encXyn op (regX w) (regY w) n = w := by
  apply BitVec.eq_of_getLsbD_eq
  intro i hi
  have hh := congrArg (fun v => v.getLsbD i) h
  simp only [BitVec.getLsbD_and, getLsbD_encXyn] at hh ⊢
  simp only [regX, regY, ofReg_regOf, fieldX, fieldY, BitVec.getLsbD_extractLsb']
  interval_cases i <;> simp_all

theorem encXyn_fields {w : Word} {op : BitVec 4} (h : w &&& 0xF000 = encXyn op 0 0 0) :
    encXyn op (regX w) (regY w) (fieldN w) = w := by
  apply BitVec.eq_of_getLsbD_eq
  intro i hi
  have hh := congrArg (fun v => v.getLsbD i) h
  simp only [BitVec.getLsbD_and, getLsbD_encXyn] at hh ⊢
  simp only [regX, regY, ofReg_regOf, fieldX, fieldY, fieldN, BitVec.getLsbD_extractLsb']
  interval_cases i <;> simp_all

/-- Two rows that accept one word agree on every bit that both of them test. -/
theorem OpRow.accepts_agree {r q : OpRow} {w : Word} (h1 : r.accepts w = true) (h2 : q.accepts w = true) :
    (r.mtch ^^^ q.mtch) &&& (r.mask &&& q.mask) = 0 := by
  simp only [OpRow.accepts, beq_iff_eq] at h1 h2
  rw [← h1, ← h2]
  apply BitVec.eq_of_getLsbD_eq
  intro i hi
  simp only [BitVec.getLsbD_and, BitVec.getLsbD_xor]
  cases w.getLsbD i <;> cases r.mask.getLsbD i <;> cases q.mask.getLsbD i <;> simp

/-- A word is its two bytes (spec/20_memory.md R46). -/
theorem beWord_bytes (w : Word) : beWord (highByte w) (lowByte w) = w := by
  apply BitVec.eq_of_getLsbD_eq
  intro i hi
  refine BitVec.getLsbD_append.trans ?_
  simp only [highByte, lowByte, BitVec.getLsbD_extractLsb']
  split
  · simp_all
  · have : i - 8 < 8 := by omega
    have h8 : 8 + (i - 8) = i := by omega
    simp [this, h8]

end Sys2Proof
end

