-- ==== Sys2Proof/Laws/Exec.lean ====
section
/-! SUPPORT. What a handler can do, said once for all instructions: it raises a fault and changes nothing else, or it
changes only the registers, bytes and state elements of its instruction. Every whole-machine claim is derived from
`exec_cases`. -/

namespace Sys2Proof.Machine

/-- The registers an instruction may write. -/
def destRegs : Instr → List Reg
  | .ldVxNn x _ | .addVxNn x _ | .ldVxVy x _ | .orVxVy x _ | .andVxVy x _ | .xorVxVy x _ | .shrVx x _
  | .shlVx x _ | .rndVxNn x _ | .ldVxDt x | .ldVxK x => [x]
  | .addVxVy x _ | .subVxVy x _ | .subnVxVy x _ => [x, vf]
  | .drw _ _ _ => [vf]
  | .ldVxMem x => regsUpTo x
  | _ => []

/-- The addresses an instruction may store to. -/
def destAddrs (s : State) : Instr → List Nat
  | .cls => fbAddrs
  | .drw x y n => spriteBytes s.params.drawEdge (s.startX x) (s.startY y) n
  | .ldBVx _ => s.effAddrs 3
  | .ldMemVx x => s.effAddrs (x.val + 1)
  | _ => []

/-- The other state elements an instruction may write. -/
def destParts : Instr → List Part
  | .cls | .drw _ _ _ => [.redrawPending]
  | .ret | .call _ => [.pc, .callStack]
  | .jp _ | .jpV0Nnn _ | .seVxNn _ _ | .sneVxNn _ _ | .seVxVy _ _ | .sneVxVy _ _ | .skpVx _ | .sknpVx _ => [.pc]
  | .rndVxNn _ _ => [.draws]
  | .ldINnn _ | .addIVx _ | .ldFVx _ => [.idx]
  | .ldDtVx _ => [.dt]
  | .ldStVx _ => [.st]
  | .ldVxK _ => [.pc, .waitingForKey, .keyWaitSatisfied]
  | _ => []

/-- The instructions that can fault (spec/60_exceptions.md R126). -/
def canFault : Instr → Bool
  | .ret | .call _ | .drw _ _ _ | .ldFVx _ | .ldBVx _ | .ldMemVx _ | .ldVxMem _ | .ldVxK _ => true
  | _ => false

/-- The addresses of the stored registers are those of the checked block. -/
theorem State.mem_storeRegs {s : State} {x : Reg} {c : Store}
    (h : c ∈ (regsUpTo x).map (fun k => (s.effAddr k.val, s.V k))) : c.1 ∈ s.effAddrs (x.val + 1) := by
  obtain ⟨k, hk, rfl⟩ := List.mem_map.mp h
  exact State.mem_effAddrs.mpr ⟨k.val, Nat.lt_succ_of_le (mem_regsUpTo.mp hk), rfl⟩

/-- A guarded handler raises, or its run keeps the frame. -/
theorem guarded_frame {i : Instr} {s t : State} {check : Option Failure} {run : State → State}
    {regs : List Reg} {stored : List Nat} {parts : List Part} (h : s.guarded i check run = t)
    (hrun : check = none → Frame regs stored parts s (run s)) :
    (∃ f, check = some f ∧ t = s.raiseIn i f) ∨ (check = none ∧ Frame regs stored parts s t) := by
  subst h
  rcases s.guarded_cases i check run with ⟨f, hc, h⟩ | ⟨hc, h⟩
  · exact .inl ⟨f, hc, h⟩
  · exact .inr ⟨hc, h ▸ hrun hc⟩

/-- A change of PC alone. -/
theorem Frame.setPc {regs : List Reg} {stored : List Nat} {parts : List Part} (h : .pc ∈ parts) (a : Word)
    (s : State) : Frame regs stored parts s (s.setPc a) :=
  { Frame.refl regs stored parts s with pc := fun hn => absurd h hn }

/-- A change of I alone. -/
theorem Frame.setI {regs : List Reg} {stored : List Nat} {parts : List Part} (h : .idx ∈ parts) (a : Word)
    (s : State) : Frame regs stored parts s (s.setI a) :=
  { Frame.refl regs stored parts s with idx := fun hn => absurd h hn }

/-- A change of DT alone. -/
theorem Frame.setDt {regs : List Reg} {stored : List Nat} {parts : List Part} (h : .dt ∈ parts) (b : Byte)
    (s : State) : Frame regs stored parts s (s.setDt b) :=
  { Frame.refl regs stored parts s with dt := fun hn => absurd h hn }

/-- A change of ST alone. -/
theorem Frame.setSt {regs : List Reg} {stored : List Nat} {parts : List Part} (h : .st ∈ parts) (b : Byte)
    (s : State) : Frame regs stored parts s (s.setSt b) :=
  { Frame.refl regs stored parts s with st := fun hn => absurd h hn }

/-- A change of `redrawPending` alone. -/
theorem Frame.setRedraw {regs : List Reg} {stored : List Nat} {parts : List Part} (h : .redrawPending ∈ parts)
    (b : Bool) (s : State) : Frame regs stored parts s (s.setRedraw b) :=
  { Frame.refl regs stored parts s with redrawPending := fun hn => absurd h hn }

/-- A change of `waitingForKey` alone. -/
theorem Frame.setWaiting {regs : List Reg} {stored : List Nat} {parts : List Part} (h : .waitingForKey ∈ parts)
    (b : Bool) (s : State) : Frame regs stored parts s (s.setWaiting b) :=
  { Frame.refl regs stored parts s with waitingForKey := fun hn => absurd h hn }

/-- A change of `keyWaitSatisfied` alone. -/
theorem Frame.setSatisfied {regs : List Reg} {stored : List Nat} {parts : List Part}
    (h : .keyWaitSatisfied ∈ parts) (b : Bool) (s : State) : Frame regs stored parts s (s.setSatisfied b) :=
  { Frame.refl regs stored parts s with keyWaitSatisfied := fun hn => absurd h hn }

/-- A draw from the random source. -/
theorem Frame.nextDraw {regs : List Reg} {stored : List Nat} {parts : List Part} (h : .draws ∈ parts)
    (s : State) : Frame regs stored parts s s.nextDraw :=
  { Frame.refl regs stored parts s with draws := fun hn => absurd h hn }

/-- A skip changes PC only. -/
theorem Frame.skipIf {regs : List Reg} {stored : List Nat} {parts : List Part} (h : .pc ∈ parts) (b : Bool)
    (s : State) : Frame regs stored parts s (s.skipIf b) := by
  cases b
  · exact Frame.refl ..
  · exact Frame.setPc h _ s

/-- A push changes the call stack only. -/
theorem Frame.push {regs : List Reg} {stored : List Nat} {parts : List Part} (h : .callStack ∈ parts)
    (a : Word) (s : State) : Frame regs stored parts s (s.push a) := by
  unfold State.push
  split
  · exact { Frame.refl regs stored parts s with callStack := fun hn => absurd h hn }
  · exact Frame.refl ..

/-- A pop changes the depth and PC only. -/
theorem Frame.popToPc {regs : List Reg} {stored : List Nat} {parts : List Part} (h : .callStack ∈ parts)
    (h' : .pc ∈ parts) (s : State) : Frame regs stored parts s s.popToPc := by
  unfold State.popToPc
  split
  · exact { Frame.refl regs stored parts s with
      callStack := fun hn => absurd h hn
      pc := fun hn => absurd h' hn }
  · exact Frame.refl ..

/-- A drawing keeps the frame of DRW. -/
theorem Frame.draw (x y : Reg) (n : Nat) (s : State) :
    Frame [vf] (spriteBytes s.params.drawEdge (s.startX x) (s.startY y) n) [.redrawPending] s
      (((s.setV vf 0).drawRows (s.startX x) (s.startY y) n).setRedraw true) :=
  ((Frame.setV (List.mem_singleton.mpr rfl) 0 s).trans
    (Frame.drawRows (s.setV vf 0) fun _ h => h)).trans (Frame.setRedraw (List.mem_singleton.mpr rfl) true _)

/-- The two ends of a handler: a raised fault of an instruction that can fault, or its effect within its frame. -/
def Ends (i : Instr) (s t : State) : Prop :=
  (∃ f, canFault i = true ∧ t = s.raiseIn i f) ∨ Frame (destRegs i) (destAddrs s i) (destParts i) s t

theorem Ends.of_guarded {i : Instr} {s t : State} {check : Option Failure} {run : State → State}
    (hc : canFault i = true) (h : Host.Outcome.next (s.guarded i check run) = (.next t : Result))
    (hrun : check = none → Frame (destRegs i) (destAddrs s i) (destParts i) s (run s)) : Ends i s t := by
  rcases guarded_frame (Host.Outcome.next.inj h) hrun with ⟨f, _, h⟩ | ⟨_, h⟩
  · exact .inl ⟨f, hc, h⟩
  · exact .inr h

theorem Ends.of_frame {i : Instr} {s t u : State} (h : (.next u : Result) = .next t)
    (hf : Frame (destRegs i) (destAddrs s i) (destParts i) s u) : Ends i s t :=
  .inr (Host.Outcome.next.inj h ▸ hf)

theorem execLdVxK_ends {x : Reg} {s t : State} (h : execLdVxK x s = .next t) : Ends (.ldVxK x) s t := by
  unfold execLdVxK at h
  split at h
  · split at h
    · split at h
      · exact .inl ⟨_, rfl, (Host.Outcome.next.inj h).symm⟩
      · exact Ends.of_frame h (((Frame.setV (by simp [destRegs]) _ _).trans
          (Frame.setWaiting (by simp [destParts]) _ _)).trans (Frame.setSatisfied (by simp [destParts]) _ _))
    · exact Ends.of_frame h (Frame.setPc (by simp [destParts]) _ _)
  · exact Ends.of_frame h ((Frame.setWaiting (by simp [destParts]) _ _).trans
      (Frame.setPc (by simp [destParts]) _ _))

/-- What a handler can do. -/
theorem exec_cases {i : Instr} {s t : State} (h : exec i s = .next t) : Ends i s t := by
  cases i with
  | cls =>
    exact Ends.of_frame h ((Frame.pokeAll (by simp [destAddrs]) s).trans
      (Frame.setRedraw (by simp [destParts]) true _))
  | ret => exact Ends.of_guarded rfl h fun _ => Frame.popToPc (by simp [destParts]) (by simp [destParts]) s
  | jp => exact Ends.of_frame h (Frame.setPc (by simp [destParts]) _ s)
  | call =>
    exact Ends.of_guarded rfl h fun _ =>
      (Frame.push (by simp [destParts]) _ s).trans (Frame.setPc (by simp [destParts]) _ _)
  | seVxNn => exact Ends.of_frame h (Frame.skipIf (by simp [destParts]) _ s)
  | sneVxNn => exact Ends.of_frame h (Frame.skipIf (by simp [destParts]) _ s)
  | seVxVy => exact Ends.of_frame h (Frame.skipIf (by simp [destParts]) _ s)
  | sneVxVy => exact Ends.of_frame h (Frame.skipIf (by simp [destParts]) _ s)
  | jpV0Nnn => exact Ends.of_frame h (Frame.setPc (by simp [destParts]) _ s)
  | ldVxNn => exact Ends.of_frame h (Frame.setV (by simp [destRegs]) _ s)
  | addVxNn => exact Ends.of_frame h (Frame.setV (by simp [destRegs]) _ s)
  | ldVxVy => exact Ends.of_frame h (Frame.setV (by simp [destRegs]) _ s)
  | orVxVy => exact Ends.of_frame h (Frame.setV (by simp [destRegs]) _ s)
  | andVxVy => exact Ends.of_frame h (Frame.setV (by simp [destRegs]) _ s)
  | xorVxVy => exact Ends.of_frame h (Frame.setV (by simp [destRegs]) _ s)
  | addVxVy => exact Ends.of_frame h (Frame.writeWithFlag _ _ _ _ s)
  | subVxVy => exact Ends.of_frame h (Frame.writeWithFlag _ _ _ _ s)
  | subnVxVy => exact Ends.of_frame h (Frame.writeWithFlag _ _ _ _ s)
  | shrVx => exact Ends.of_frame h (Frame.setV (by simp [destRegs]) _ s)
  | shlVx => exact Ends.of_frame h (Frame.setV (by simp [destRegs]) _ s)
  | rndVxNn =>
    exact Ends.of_frame h ((Frame.nextDraw (by simp [destParts]) s).trans (Frame.setV (by simp [destRegs]) _ _))
  | ldINnn => exact Ends.of_frame h (Frame.setI (by simp [destParts]) _ s)
  | addIVx => exact Ends.of_frame h (Frame.setI (by simp [destParts]) _ s)
  | ldFVx => exact Ends.of_guarded rfl h fun _ => Frame.setI (by simp [destParts]) _ s
  | ldBVx =>
    exact Ends.of_guarded rfl h fun _ => Frame.pokeAll (fun _ hc => (List.of_mem_zip hc).1) s
  | ldMemVx => exact Ends.of_guarded rfl h fun _ => Frame.pokeAll (fun _ hc => State.mem_storeRegs hc) s
  | ldVxMem => exact Ends.of_guarded rfl h fun _ => Frame.loadRegs (fun _ hk => hk) s
  | drw => exact Ends.of_guarded rfl h fun _ => Frame.draw _ _ _ s
  | skpVx => exact Ends.of_frame h (Frame.skipIf (by simp [destParts]) _ s)
  | sknpVx => exact Ends.of_frame h (Frame.skipIf (by simp [destParts]) _ s)
  | ldVxDt => exact Ends.of_frame h (Frame.setV (by simp [destRegs]) _ s)
  | ldVxK => exact execLdVxK_ends h
  | ldDtVx => exact Ends.of_frame h (Frame.setDt (by simp [destParts]) _ s)
  | ldStVx => exact Ends.of_frame h (Frame.setSt (by simp [destParts]) _ s)

/-- A handler on a state without a fault that leaves one has raised it, and changed nothing else. -/
theorem exec_raised {i : Instr} {s t : State} (h0 : s.fault = none) (h : exec i s = .next t)
    (hf : t.fault ≠ none) : ∃ f, t = s.raiseIn i f := by
  rcases exec_cases h with ⟨f, _, hr⟩ | hfr
  · exact ⟨f, hr⟩
  · refine absurd ((hfr.fault ?_).trans h0) hf
    cases i <;> simp [destParts]

/-- No handler changes the host's schedule (spec/60_exceptions.md R141; entry 1). -/
theorem exec_keeps_schedule {i : Instr} {s t : State} (h : exec i s = .next t) :
    t.hostMoves = s.hostMoves ∧ t.rounds = s.rounds := by
  rcases exec_cases h with ⟨f, _, rfl⟩ | hf
  · exact ⟨rfl, rfl⟩
  · exact hf.schedule (by cases i <;> simp [destParts])

/-- No handler changes the open parameters, the key state or `running` (spec/10_state.md R30, R34, R42). -/
theorem exec_keeps {i : Instr} {s t : State} (h : exec i s = .next t) :
    t.params = s.params ∧ t.keyDown = s.keyDown ∧ t.running = s.running := by
  rcases exec_cases h with ⟨f, _, rfl⟩ | hf
  · exact ⟨rfl, rfl, rfl⟩
  · exact ⟨hf.params (by cases i <;> simp [destParts]), hf.keyDown (by cases i <;> simp [destParts]),
      hf.running (by cases i <;> simp [destParts])⟩

end Sys2Proof.Machine
end

