-- ==== Sys2Proof/Laws/PerInstr.lean ====
section
/-! SUPPORT. The per-instruction family `EncodingRow`: the word of an instruction is accepted by that
instruction's own row of R67, and the row reads every operand back. -/

namespace Sys2Proof

/-- The row of R67 that is the instruction's own: its place in the table. -/
def opRowIndex : Instr → Nat
  | .cls => 0
  | .ret => 1
  | .jp _ => 2
  | .call _ => 3
  | .seVxNn _ _ => 4
  | .sneVxNn _ _ => 5
  | .seVxVy _ _ => 6
  | .ldVxNn _ _ => 7
  | .addVxNn _ _ => 8
  | .ldVxVy _ _ => 9
  | .orVxVy _ _ => 10
  | .andVxVy _ _ => 11
  | .xorVxVy _ _ => 12
  | .addVxVy _ _ => 13
  | .subVxVy _ _ => 14
  | .shrVx _ _ => 15
  | .subnVxVy _ _ => 16
  | .shlVx _ _ => 17
  | .sneVxVy _ _ => 18
  | .ldINnn _ => 19
  | .jpV0Nnn _ => 20
  | .rndVxNn _ _ => 21
  | .drw _ _ _ => 22
  | .skpVx _ => 23
  | .sknpVx _ => 24
  | .ldVxDt _ => 25
  | .ldVxK _ => 26
  | .ldDtVx _ => 27
  | .ldStVx _ => 28
  | .addIVx _ => 29
  | .ldFVx _ => 30
  | .ldBVx _ => 31
  | .ldMemVx _ => 32
  | .ldVxMem _ => 33

/-- The row of R67 at the instruction's own place accepts its word, and reads the instruction back from it
(spec/30_encoding.md R67, R68). -/
def Laws.EncodingRow.Statement (i : Instr) : Prop :=
  i.WellFormed = true →
    ∃ r, opRows[opRowIndex i]? = some r ∧ r.accepts (encode i) = true ∧ r.build (encode i) = i

/-- How a row is shown to be an instruction's own. -/
theorem Laws.EncodingRow.of_row {i : Instr} (r : OpRow) (hr : opRows[opRowIndex i]? = some r)
    (hm : encode i &&& r.mask = r.mtch) (hb : i.WellFormed = true → r.build (encode i) = i) :
    Laws.EncodingRow.Statement i :=
  fun h => ⟨r, hr, beq_iff_eq.mpr hm, hb h⟩

theorem Laws.EncodingRow.cls : Laws.EncodingRow.Statement .cls :=
  Laws.EncodingRow.of_row _ rfl rfl fun _ => rfl

theorem Laws.EncodingRow.ret : Laws.EncodingRow.Statement .ret :=
  Laws.EncodingRow.of_row _ rfl rfl fun _ => rfl

theorem Laws.EncodingRow.jp (nnn : Addr) : Laws.EncodingRow.Statement (.jp nnn) :=
  Laws.EncodingRow.of_row _ rfl (encNnn_mask ..) fun _ => congrArg _ (fieldNnn_encNnn ..)

theorem Laws.EncodingRow.call (nnn : Addr) : Laws.EncodingRow.Statement (.call nnn) :=
  Laws.EncodingRow.of_row _ rfl (encNnn_mask ..) fun _ => congrArg _ (fieldNnn_encNnn ..)

theorem Laws.EncodingRow.seVxNn (x : Reg) (nn : Byte) : Laws.EncodingRow.Statement (.seVxNn x nn) :=
  Laws.EncodingRow.of_row _ rfl (encXnn_mask ..) fun _ => congrArg₂ _ (regX_encXnn ..) (fieldNn_encXnn ..)

theorem Laws.EncodingRow.sneVxNn (x : Reg) (nn : Byte) : Laws.EncodingRow.Statement (.sneVxNn x nn) :=
  Laws.EncodingRow.of_row _ rfl (encXnn_mask ..) fun _ => congrArg₂ _ (regX_encXnn ..) (fieldNn_encXnn ..)

theorem Laws.EncodingRow.seVxVy (x : Reg) (y : Reg) : Laws.EncodingRow.Statement (.seVxVy x y) :=
  Laws.EncodingRow.of_row _ rfl (encXyn_mask_n ..) fun _ => congrArg₂ _ (regX_encXyn ..) (regY_encXyn ..)

theorem Laws.EncodingRow.ldVxNn (x : Reg) (nn : Byte) : Laws.EncodingRow.Statement (.ldVxNn x nn) :=
  Laws.EncodingRow.of_row _ rfl (encXnn_mask ..) fun _ => congrArg₂ _ (regX_encXnn ..) (fieldNn_encXnn ..)

theorem Laws.EncodingRow.addVxNn (x : Reg) (nn : Byte) : Laws.EncodingRow.Statement (.addVxNn x nn) :=
  Laws.EncodingRow.of_row _ rfl (encXnn_mask ..) fun _ => congrArg₂ _ (regX_encXnn ..) (fieldNn_encXnn ..)

theorem Laws.EncodingRow.ldVxVy (x : Reg) (y : Reg) : Laws.EncodingRow.Statement (.ldVxVy x y) :=
  Laws.EncodingRow.of_row _ rfl (encXyn_mask_n ..) fun _ => congrArg₂ _ (regX_encXyn ..) (regY_encXyn ..)

theorem Laws.EncodingRow.orVxVy (x : Reg) (y : Reg) : Laws.EncodingRow.Statement (.orVxVy x y) :=
  Laws.EncodingRow.of_row _ rfl (encXyn_mask_n ..) fun _ => congrArg₂ _ (regX_encXyn ..) (regY_encXyn ..)

theorem Laws.EncodingRow.andVxVy (x : Reg) (y : Reg) : Laws.EncodingRow.Statement (.andVxVy x y) :=
  Laws.EncodingRow.of_row _ rfl (encXyn_mask_n ..) fun _ => congrArg₂ _ (regX_encXyn ..) (regY_encXyn ..)

theorem Laws.EncodingRow.xorVxVy (x : Reg) (y : Reg) : Laws.EncodingRow.Statement (.xorVxVy x y) :=
  Laws.EncodingRow.of_row _ rfl (encXyn_mask_n ..) fun _ => congrArg₂ _ (regX_encXyn ..) (regY_encXyn ..)

theorem Laws.EncodingRow.addVxVy (x : Reg) (y : Reg) : Laws.EncodingRow.Statement (.addVxVy x y) :=
  Laws.EncodingRow.of_row _ rfl (encXyn_mask_n ..) fun _ => congrArg₂ _ (regX_encXyn ..) (regY_encXyn ..)

theorem Laws.EncodingRow.subVxVy (x : Reg) (y : Reg) : Laws.EncodingRow.Statement (.subVxVy x y) :=
  Laws.EncodingRow.of_row _ rfl (encXyn_mask_n ..) fun _ => congrArg₂ _ (regX_encXyn ..) (regY_encXyn ..)

theorem Laws.EncodingRow.shrVx (x : Reg) (y : Reg) : Laws.EncodingRow.Statement (.shrVx x y) :=
  Laws.EncodingRow.of_row _ rfl (encXyn_mask_n ..) fun _ => congrArg₂ _ (regX_encXyn ..) (regY_encXyn ..)

theorem Laws.EncodingRow.subnVxVy (x : Reg) (y : Reg) : Laws.EncodingRow.Statement (.subnVxVy x y) :=
  Laws.EncodingRow.of_row _ rfl (encXyn_mask_n ..) fun _ => congrArg₂ _ (regX_encXyn ..) (regY_encXyn ..)

theorem Laws.EncodingRow.shlVx (x : Reg) (y : Reg) : Laws.EncodingRow.Statement (.shlVx x y) :=
  Laws.EncodingRow.of_row _ rfl (encXyn_mask_n ..) fun _ => congrArg₂ _ (regX_encXyn ..) (regY_encXyn ..)

theorem Laws.EncodingRow.sneVxVy (x : Reg) (y : Reg) : Laws.EncodingRow.Statement (.sneVxVy x y) :=
  Laws.EncodingRow.of_row _ rfl (encXyn_mask_n ..) fun _ => congrArg₂ _ (regX_encXyn ..) (regY_encXyn ..)

theorem Laws.EncodingRow.ldINnn (nnn : Addr) : Laws.EncodingRow.Statement (.ldINnn nnn) :=
  Laws.EncodingRow.of_row _ rfl (encNnn_mask ..) fun _ => congrArg _ (fieldNnn_encNnn ..)

theorem Laws.EncodingRow.jpV0Nnn (nnn : Addr) : Laws.EncodingRow.Statement (.jpV0Nnn nnn) :=
  Laws.EncodingRow.of_row _ rfl (encNnn_mask ..) fun _ => congrArg _ (fieldNnn_encNnn ..)

theorem Laws.EncodingRow.rndVxNn (x : Reg) (nn : Byte) : Laws.EncodingRow.Statement (.rndVxNn x nn) :=
  Laws.EncodingRow.of_row _ rfl (encXnn_mask ..) fun _ => congrArg₂ _ (regX_encXnn ..) (fieldNn_encXnn ..)

theorem Laws.EncodingRow.drw (x : Reg) (y : Reg) (n : Nat) : Laws.EncodingRow.Statement (.drw x y n) :=
  Laws.EncodingRow.of_row _ rfl (encXyn_mask ..) fun h => by
    have hn : n < 16 := of_decide_eq_true h
    simp only [encode, regX_encXyn, regY_encXyn, fieldN_encXyn, BitVec.toNat_ofNat]
    rw [Nat.mod_eq_of_lt hn]

theorem Laws.EncodingRow.skpVx (x : Reg) : Laws.EncodingRow.Statement (.skpVx x) :=
  Laws.EncodingRow.of_row _ rfl (encXnn_mask_nn ..) fun _ => congrArg _ (regX_encXnn ..)

theorem Laws.EncodingRow.sknpVx (x : Reg) : Laws.EncodingRow.Statement (.sknpVx x) :=
  Laws.EncodingRow.of_row _ rfl (encXnn_mask_nn ..) fun _ => congrArg _ (regX_encXnn ..)

theorem Laws.EncodingRow.ldVxDt (x : Reg) : Laws.EncodingRow.Statement (.ldVxDt x) :=
  Laws.EncodingRow.of_row _ rfl (encXnn_mask_nn ..) fun _ => congrArg _ (regX_encXnn ..)

theorem Laws.EncodingRow.ldVxK (x : Reg) : Laws.EncodingRow.Statement (.ldVxK x) :=
  Laws.EncodingRow.of_row _ rfl (encXnn_mask_nn ..) fun _ => congrArg _ (regX_encXnn ..)

theorem Laws.EncodingRow.ldDtVx (x : Reg) : Laws.EncodingRow.Statement (.ldDtVx x) :=
  Laws.EncodingRow.of_row _ rfl (encXnn_mask_nn ..) fun _ => congrArg _ (regX_encXnn ..)

theorem Laws.EncodingRow.ldStVx (x : Reg) : Laws.EncodingRow.Statement (.ldStVx x) :=
  Laws.EncodingRow.of_row _ rfl (encXnn_mask_nn ..) fun _ => congrArg _ (regX_encXnn ..)

theorem Laws.EncodingRow.addIVx (x : Reg) : Laws.EncodingRow.Statement (.addIVx x) :=
  Laws.EncodingRow.of_row _ rfl (encXnn_mask_nn ..) fun _ => congrArg _ (regX_encXnn ..)

theorem Laws.EncodingRow.ldFVx (x : Reg) : Laws.EncodingRow.Statement (.ldFVx x) :=
  Laws.EncodingRow.of_row _ rfl (encXnn_mask_nn ..) fun _ => congrArg _ (regX_encXnn ..)

theorem Laws.EncodingRow.ldBVx (x : Reg) : Laws.EncodingRow.Statement (.ldBVx x) :=
  Laws.EncodingRow.of_row _ rfl (encXnn_mask_nn ..) fun _ => congrArg _ (regX_encXnn ..)

theorem Laws.EncodingRow.ldMemVx (x : Reg) : Laws.EncodingRow.Statement (.ldMemVx x) :=
  Laws.EncodingRow.of_row _ rfl (encXnn_mask_nn ..) fun _ => congrArg _ (regX_encXnn ..)

theorem Laws.EncodingRow.ldVxMem (x : Reg) : Laws.EncodingRow.Statement (.ldVxMem x) :=
  Laws.EncodingRow.of_row _ rfl (encXnn_mask_nn ..) fun _ => congrArg _ (regX_encXnn ..)

end Sys2Proof
end

