-- ==== Sys2Proof/Tests/Slice0.lean ====
section
/-! SUPPORT. Tests of the model against the spec's own words and vectors (spec/30_encoding.md R67,
spec/95_test_vectors.md), and for each statement with hypotheses a witness that meets them. -/

namespace Sys2Proof.Machine

/-! ## Small states -/

/-- The state after reset with a word at PC = 0x200, the start of the vectors of spec/95_test_vectors.md. -/
def placed (w : Nat) : State := State.reset.withFetchWord 16 w

/-- The state an outcome holds, if it is a next state. -/
def nextOf : Result → Option State
  | .next t => some t
  | .fault _ => none
  | .refused _ => none

/-- What one step leaves, seen through `f`. -/
def seen {α : Type} (f : State → α) (s : State) : Option α := (nextOf (step s)).map f

/-- What one handler leaves, seen through `f`. -/
def seenExec {α : Type} (f : State → α) (i : Instr) (s : State) : Option α := (nextOf (exec i s)).map f

/-- A core with that call depth. -/
def deep (sp : Fin 17) : State := { State.reset with sp := sp }

/-- A core with these moves of the host pending. -/
def pending (moves : List HostMove) (s : State) : State := s.setSchedule moves s.rounds

/-- The state after reset, with that PC and a cycle to come. -/
def atPc (pc : Word) : State := pending [.cycle] (State.reset.setPc pc)

/-- A core that a fault has stopped. -/
def faulted : State := (pending [.cycle] State.reset).takeFault .stackUnderflow 0x200 (some 0x00EE) 0

/-- A core the host has stopped. -/
def halted : State := (pending [.cycle] State.reset).setRunning false

/-- The core of program P5 of spec/95_test_vectors.md after its first cycle: it awaits a key. -/
def awaiting : State := ((placed 0xF30A).setLoadOpen false).setWaiting true

/-- The addresses in a list whose bytes are not zero. -/
def nonzero (as : List Nat) (s : State) : List (Nat × Nat) :=
  (as.map fun a => (a, (s.peek a).toNat)).filter fun c => c.2 != 0

/-! ## Well-formed and ill-formed terms -/

theorem test_wellFormed_refuses_sixteen_rows : (Instr.drw 0 0 16).WellFormed = false := by decide

theorem test_wellFormed_admits_fifteen_rows : (Instr.drw 15 15 15).WellFormed = true := by decide

/-! ## Decoding: words written out bit by bit from the patterns of R67 -/

theorem test_decode_control :
    decodeWord 0b0000000011101110 = some .ret ∧ decodeWord 0b0001001000001000 = some (.jp 0x208) ∧
    decodeWord 0b0010001000010000 = some (.call 0x210) ∧
    decodeWord 0b0011001100101010 = some (.seVxNn 3 0x2A) ∧
    decodeWord 0b0100001100101010 = some (.sneVxNn 3 0x2A) ∧
    decodeWord 0b0101000100100000 = some (.seVxVy 1 2) ∧
    decodeWord 0b1001000100100000 = some (.sneVxVy 1 2) ∧
    decodeWord 0b1011001100000000 = some (.jpV0Nnn 0x300) := by decide

theorem test_decode_alu :
    decodeWord 0b0110000000000101 = some (.ldVxNn 0 5) ∧
    decodeWord 0b0111000000000001 = some (.addVxNn 0 1) ∧
    decodeWord 0b1000000100100000 = some (.ldVxVy 1 2) ∧
    decodeWord 0b1000000100100001 = some (.orVxVy 1 2) ∧
    decodeWord 0b1000000100100010 = some (.andVxVy 1 2) ∧
    decodeWord 0b1000000100100011 = some (.xorVxVy 1 2) ∧
    decodeWord 0b1000000100100100 = some (.addVxVy 1 2) ∧
    decodeWord 0b1000000100100101 = some (.subVxVy 1 2) ∧
    decodeWord 0b1000000100100110 = some (.shrVx 1 2) ∧
    decodeWord 0b1000000100100111 = some (.subnVxVy 1 2) ∧
    decodeWord 0b1000000100101110 = some (.shlVx 1 2) ∧
    decodeWord 0b1100001100001111 = some (.rndVxNn 3 0x0F) := by decide

theorem test_decode_index_memory :
    decodeWord 0b1010001100000000 = some (.ldINnn 0x300) ∧
    decodeWord 0b1111001000011110 = some (.addIVx 2) ∧ decodeWord 0b1111000100101001 = some (.ldFVx 1) ∧
    decodeWord 0b1111000000110011 = some (.ldBVx 0) ∧ decodeWord 0b1111001001010101 = some (.ldMemVx 2) ∧
    decodeWord 0b1111001001100101 = some (.ldVxMem 2) := by decide

theorem test_decode_display :
    decodeWord 0b0000000011100000 = some .cls ∧
    decodeWord 0b1101000100100101 = some (.drw 1 2 5) := by decide

theorem test_decode_keys_timers :
    decodeWord 0b1110000110011110 = some (.skpVx 1) ∧ decodeWord 0b1110000110100001 = some (.sknpVx 1) ∧
    decodeWord 0b1111001100000111 = some (.ldVxDt 3) ∧ decodeWord 0b1111001100001010 = some (.ldVxK 3) ∧
    decodeWord 0b1111001100010101 = some (.ldDtVx 3) ∧
    decodeWord 0b1111000000011000 = some (.ldStVx 0) := by decide

/-- The illegal words of spec/95_test_vectors.md 2.8, and one more for each family of R69. -/
theorem test_decode_illegal :
    ∀ w ∈ [0x0000, 0x0123, 0x5121, 0x8008, 0x800F, 0x9121, 0xE000, 0xF000, 0xF0FF, 0xE09F, 0xF166],
      decodeWord (BitVec.ofNat 16 w) = none := by decide

/-- A string too short for a word, and the bytes left over after one (R62). -/
theorem test_decode_bytes :
    decode [] = .error .truncated ∧ decode [0x60] = .error .truncated ∧
    decode [0x51, 0x21] = .error (.illegal 0x5121) ∧
    decode [0x60, 0x05, 0x61] = .ok (.ldVxNn 0 5, [0x61]) :=
  ⟨rfl, rfl, rfl, rfl⟩

/-! ## Vectors of spec/95_test_vectors.md, one step each -/

/-- S2. -/
theorem test_add_carries :
    seen (fun t => (t.V 0, t.V vf, t.pc)) (((placed 0x8014).setV 0 250).setV 1 10) = some (4, 1, 0x202) := by
  decide

/-- B4: the carry is written last. -/
theorem test_add_into_vf :
    seen (fun t => t.V vf) (((placed 0x8F14).setV vf 200).setV 1 100) = some 1 := by decide

/-- A3. -/
theorem test_add_immediate_keeps_vf :
    seen (fun t => (t.V 0, t.V vf)) (((placed 0x7001).setV 0 0xFF).setV vf 5) = some (0, 5) := by decide

/-- A5 to A8. -/
theorem test_logic :
    seen (fun t => t.V 0) (((placed 0x8011).setV 0 0xF0).setV 1 0x0F) = some 0xFF ∧
    seen (fun t => t.V 0) (((placed 0x8012).setV 0 0xF0).setV 1 0x3C) = some 0x30 ∧
    seen (fun t => t.V 0) (((placed 0x8013).setV 0 0xF0).setV 1 0x3C) = some 0xCC ∧
    seen (fun t => (t.V 0, t.V vf)) (((placed 0x8003).setV 0 0x5A).setV vf 7) = some (0, 7) := by decide

/-- B8, B9 and B12 under both write orders. -/
theorem test_sub :
    seen (fun t => (t.V 0, t.V vf)) (((placed 0x8015).setV 0 3).setV 1 10) = some (249, 0) ∧
    seen (fun t => (t.V 0, t.V vf)) (((placed 0x8015).setV 0 5).setV 1 5) = some (0, 0) ∧
    seen (fun t => t.V vf) (((placed 0x8F15).setV vf 10).setV 1 3) = some 7 ∧
    seen (fun t => t.V vf)
      { ((placed 0x8F15).setV vf 10).setV 1 3 with
        params := { Config.defaults with subWriteOrder := .valueThenFlag } } = some 1 := by decide

/-- B14, B15 and B17. -/
theorem test_subn :
    seen (fun t => (t.V 0, t.V vf)) (((placed 0x8017).setV 0 3).setV 1 10) = some (7, 1) ∧
    seen (fun t => (t.V 0, t.V vf)) (((placed 0x8017).setV 0 10).setV 1 3) = some (249, 0) ∧
    seen (fun t => t.V vf) (((placed 0x8F17).setV vf 3).setV 1 10) = some 7 := by decide

/-- C1, C3, C4. -/
theorem test_shifts :
    seen (fun t => (t.V 0, t.V vf)) (((placed 0x8006).setV 0 0x81).setV vf 7) = some (0x40, 7) ∧
    seen (fun t => (t.V 0, t.V vf)) (((placed 0x80FE).setV 0 0x81).setV vf 7) = some (0x02, 7) ∧
    seen (fun t => t.V vf) ((placed 0x8F06).setV vf 0x81) = some 0x40 := by decide

/-- C8: whatever the random byte is. -/
theorem test_random_mask_zero : seen (fun t => t.V 3) ((placed 0xC300).setV 3 9) = some 0 := by
  have h : ∀ b : Byte, b &&& 0 = 0 := fun b => BitVec.and_zero
  exact congrArg some (h _)

/-- D2, D3, D4, D6. -/
theorem test_call_and_ret :
    seen (fun t => (t.pc, t.sp.val, t.stackAt 0)) (placed 0x2210) = some (0x210, 1, 0x202) ∧
    seen (fun t => (t.pc, t.sp.val))
      { placed 0x00EE with sp := 1, stack := (Vector.replicate 16 0).set 0 0x206 } = some (0x206, 0) ∧
    seen (fun t => (t.fault, t.sp.val)) (placed 0x00EE) =
      some (some ⟨.stackUnderflow, 0x200, some 0x00EE, 0⟩, 0) ∧
    seen (fun t => (t.fault, t.sp.val)) { placed 0x2200 with sp := 16 } =
      some (some ⟨.stackOverflow, 0x200, some 0x2200, 0x200⟩, 16) := by decide

/-- D1, D12, D13. -/
theorem test_jumps :
    seen (fun t => t.pc) (placed 0x1208) = some 0x208 ∧
    seen (fun t => t.pc) ((placed 0xB300).setV 0 4) = some 0x304 ∧
    seen (fun t => (t.pc, t.fault)) ((placed 0xBFFF).setV 0 0xFF) = some (0x10FE, none) := by decide

/-- D9 to D11, and D7, D8 at 0x200. -/
theorem test_skips :
    seen (fun t => t.pc) ((placed 0x332A).setV 3 0x2A) = some 0x204 ∧
    seen (fun t => t.pc) ((placed 0x432A).setV 3 0x2A) = some 0x202 ∧
    seen (fun t => t.pc) (((placed 0x5120).setV 1 7).setV 2 7) = some 0x204 ∧
    seen (fun t => t.pc) (((placed 0x9120).setV 1 7).setV 2 8) = some 0x204 ∧
    seen (fun t => t.pc) ((placed 0x9110).setV 1 7) = some 0x202 := by decide

/-- D15: a skip out of the address space faults at the next fetch. -/
theorem test_skip_past_the_end :
    seen (fun t => t.pc) ((State.reset.setPc 0xFFC).withFetchWord 16 0x3000) = some 0x1000 ∧
    seen (fun t => t.fault) (atPc 0x1000) =
      some (some ⟨.fetchOutOfRange, 0x1000, none, 0x1000⟩) := by decide

/-- E1 to E3. -/
theorem test_index :
    seen (fun t => t.idx) (placed 0xA300) = some 0x300 ∧
    seen (fun t => t.idx) (((placed 0xF21E).setI 0x300).setV 2 0x10) = some 0x310 ∧
    seen (fun t => (t.idx, t.V vf)) (((placed 0xF11E).setI 0xFFFF).setV 1 1) = some (0, 0) := by decide

/-- S3, E4 and E5. -/
theorem test_font_address :
    seen (fun t => t.idx) ((placed 0xF029).setV 0 0x0A) = some 50 ∧
    seen (fun t => t.idx) ((placed 0xF129).setV 1 0x0F) = some 0x04B ∧
    seen (fun t => (t.idx, t.fault)) (((placed 0xF129).setV 1 0x10).setI 7) =
      some (7, some ⟨.fontDigitOutOfRange, 0x200, some 0xF129, 0x10⟩) := by decide

/-- S4. -/
theorem test_bcd :
    seen (nonzero [0x300, 0x301, 0x302]) (((placed 0xF033).setV 0 234).setI 0x300) =
      some [(0x300, 2), (0x301, 3), (0x302, 4)] := by decide

/-- E10 and E11: nothing is stored. -/
theorem test_bcd_faults :
    seen (fun t => (t.fault, t.peek 0xFFE, t.peek 0xFFF)) (((placed 0xF033).setV 0 234).setI 0xFFE) =
      some (some ⟨.memoryOutOfRange, 0x200, some 0xF033, 0x1000⟩, 0, 0) ∧
    seen (fun t => (t.fault, t.peek 0x200, t.peek 0x201)) (((placed 0xF033).setV 0 234).setI 0x1FF) =
      some (some ⟨.protectedWrite, 0x200, some 0xF033, 0x1FF⟩, 0xF0, 0x33) := by decide

/-- E12. -/
theorem test_store_registers :
    seen (fun t => (nonzero [0x400, 0x401, 0x402, 0x403] t, t.idx))
      (((((placed 0xF255).setV 0 1).setV 1 2).setV 2 3).setI 0x400) =
      some ([(0x400, 1), (0x401, 2), (0x402, 3)], 0x400) := by decide

/-- E17 and E16. -/
theorem test_load_registers :
    seen (fun t => (t.V 0, t.V 1, t.V 4, t.V 5)) (placed 0xF465) = some (0xF0, 0x90, 0xF0, 0) ∧
    seen (fun t => t.fault) ((placed 0xFF65).setI 0xFF1) =
      some (some ⟨.memoryOutOfRange, 0x200, some 0xFF65, 0x1000⟩) := by decide

/-- F2: a sprite row split over two bytes. -/
theorem test_draw_splits_bytes :
    seen (fun t => (nonzero [0xF00, 0xF01, 0xF08, 0xF09, 0xF20, 0xF21, 0xF28] t, t.V vf, t.redrawPending))
      ((placed 0xD125).setV 1 6) =
      some ([(0xF00, 0x03), (0xF01, 0xC0), (0xF08, 0x02), (0xF09, 0x40), (0xF20, 0x03), (0xF21, 0xC0)],
        0, true) := by decide

/-- F3 and F4: wrapping and clipping at the corner. -/
theorem test_draw_at_the_corner :
    seen (nonzero [0xFF7, 0xFF0, 0xFFF, 0xFF8, 0xF07, 0xF00, 0xF17, 0xF10])
      (((placed 0xD125).setV 1 62).setV 2 30) =
      some [(0xFF7, 0x03), (0xFF0, 0xC0), (0xFFF, 0x02), (0xFF8, 0x40), (0xF07, 0x02), (0xF00, 0x40),
        (0xF17, 0x03), (0xF10, 0xC0)] ∧
    seen (nonzero [0xFF7, 0xFF0, 0xFFF, 0xFF8, 0xF07, 0xF00, 0xF17, 0xF10])
      { ((placed 0xD125).setV 1 62).setV 2 30 with
        params := { Config.defaults with drawEdge := .clip } } =
      some [(0xFF7, 0x03), (0xFFF, 0x02)] := by decide

set_option maxRecDepth 8000 in
/-- F10. -/
theorem test_cls :
    seen (fun t => (t.peek 0xF00, t.peek 0xFFF, t.redrawPending))
      (((placed 0x00E0).poke 0xF00 0xFF).poke 0xFFF 0x01) = some (0, 0, true) := by decide

/-- G1 to G4. -/
theorem test_key_skips :
    seen (fun t => (t.pc, t.keyDown)) (((placed 0xE19E).setKeyDown (some 5)).setV 1 5) =
      some (0x204, none) ∧
    seen (fun t => t.pc) (placed 0xE19E) = some 0x202 ∧
    seen (fun t => t.pc) (placed 0xE1A1) = some 0x204 ∧
    seen (fun t => t.pc) (((placed 0xE1A1).setKeyDown (some 3)).setV 1 3) = some 0x202 := by decide

/-- G6 to G8. -/
theorem test_timers :
    seen (fun t => t.V 3) ((placed 0xF307).setDt 0x3C) = some 0x3C ∧
    seen (fun t => t.dt) ((placed 0xF315).setV 3 0x3C) = some 0x3C ∧
    seen (fun t => (t.st, t.soundOn)) ((placed 0xF018).setV 0 2) = some (2, true) := by decide

/-- G11, step 2 of program P5, its step 5 and G12. -/
theorem test_key_wait :
    seen (fun t => (t.waitingForKey, t.pc, t.keyDown))
      (((placed 0xF30A).setKeyDown (some 4)).setSatisfied true) = some (true, 0x200, none) ∧
    seen (fun t => (t.waitingForKey, t.pc)) awaiting = some (true, 0x200) ∧
    seen (fun t => (t.V 3, t.waitingForKey, t.keyWaitSatisfied, t.pc, t.keyDown))
      ((awaiting.setKeyDown (some 7)).setSatisfied true) = some (7, false, false, 0x202, none) ∧
    seen (fun t => (t.fault, t.waitingForKey, t.keyWaitSatisfied)) (awaiting.setSatisfied true) =
      some (some ⟨.keyWaitNoKey, 0x200, some 0xF30A, 0⟩, true, true) := by decide

/-- G9 and G10. -/
theorem test_tick :
    seen (fun t => (t.dt, t.st)) (pending [.tick] ((State.reset.setDt 1).setSt 0)) = some (0, 0) := by decide

/-- An illegal word executes nothing (2.8); its code is number 1 (spec/60_exceptions.md R126). -/
theorem test_illegal_word :
    seen (fun t => (t.fault, t.pc)) (placed 0x5121) =
      some (some ⟨.illegalInstruction, 0x200, some 0x5121, 0x5121⟩, 0x200) ∧
    faultNumber .illegalInstruction = 1 ∧ faultNumber .keyWaitNoKey = 8 := by decide

/-- G5, first cycle: the two policies of clearing the key. -/
theorem test_key_clear_policy :
    seen (fun t => t.keyDown) ((placed 0x6105).setKeyDown (some 5)) = some none ∧
    seen (fun t => t.keyDown)
      { (placed 0x6105).setKeyDown (some 5) with
        params := { Config.defaults with keyClearPolicy := .afterWaitOnly } } = some (some 5) := by decide

/-- A ROM is copied from 0x200 up (S1's first word; spec/70_reset_and_hazards.md R148). -/
theorem test_load_program :
    seen (fun t => (t.peek 0x200, t.peek 0x201, t.peek 0x202, t.loadOpen))
      (pending [.loadProgram (some [0x60, 0x05])] State.reset) = some (0x60, 0x05, 0, false) := by decide

/-! ## Witnesses: for each statement with hypotheses, states and operands that meet all of them, and each branch
of an if chain at its boundary -/

/-- EncodedInstructionsDecodeBack, DecodedWordsEncodeBack. -/
theorem witness_round_trips :
    (Instr.drw 15 0 15).WellFormed = true ∧ (Instr.shlVx 1 2).WellFormed = true ∧
    decodeWord 0x812E = some (.shlVx 1 2) ∧ decodeWord 0xDFFF = some (.drw 15 15 15) := by decide

/-- DecodeReturnsTheMatchingRow: a row that accepts a word, alone, and a word that no row accepts. -/
theorem witness_matching_row :
    (∃ r, opRows[22]? = some r ∧ r.accepts 0xD125 = true) ∧
    (opRows.filter fun r => r.accepts 0xD125).length = 1 ∧
    ∀ q ∈ opRows, q.accepts 0x0000 = false :=
  ⟨⟨_, rfl, by decide⟩, by decide, by decide⟩

/-- IllegalWordsByFamily: both sides hold of one word of each family, and both fail at its neighbour. -/
theorem witness_illegal_families :
    (∀ w ∈ ([0x00E1, 0x5121, 0x800D, 0x9121, 0xE19F, 0xF166] : List Nat),
      decodeWord (BitVec.ofNat 16 w) = none) ∧
    (∀ w ∈ ([0x00E0, 0x5120, 0x800E, 0x9120, 0xE19E, 0xF165] : List Nat),
      decodeWord (BitVec.ofNat 16 w) ≠ none) ∧
    fieldN 0x5121 ≠ 0 ∧ fieldN 0x800D = 0xD ∧ fieldNn 0xE19F = 0x9F ∧ fieldNn 0xF166 = 0x66 := by decide

/-- The reset state is ready once the host asks for a cycle. -/
theorem reset_ready : (pending [.cycle] State.reset).Ready := ⟨⟨rfl, rfl⟩, rfl⟩

/-- StepRunsTheDecodedInstruction: at the lowest and the highest address of a fetch. -/
theorem witness_step_runs :
    (placed 0x6005).Ready ∧ (placed 0x6005).pc.toNat = 0x200 ∧
    decodeWord (beWord ((placed 0x6005).peek 0x200) ((placed 0x6005).peek 0x201)) = some (.ldVxNn 0 5) ∧
    ((State.reset.setPc 0xFFE).withFetchWord 16 0x6005).Ready ∧
    ((State.reset.setPc 0xFFE).withFetchWord 16 0x6005).pc.toNat = 0xFFE ∧
    decodeWord (beWord (((State.reset.setPc 0xFFE).withFetchWord 16 0x6005).peek 0xFFE)
      (((State.reset.setPc 0xFFE).withFetchWord 16 0x6005).peek 0xFFF)) = some (.ldVxNn 0 5) :=
  ⟨⟨⟨rfl, rfl⟩, rfl⟩, by decide, by decide, ⟨⟨rfl, rfl⟩, rfl⟩, by decide, by decide⟩

/-- FetchOutsideProgramSpaceFaults: both bounds. -/
theorem witness_fetch_outside :
    (atPc 0x1FF).Ready ∧ (atPc 0x1FF).pc.toNat < 0x200 ∧ (atPc 0xFFF).Ready ∧ 0xFFE < (atPc 0xFFF).pc.toNat :=
  ⟨⟨⟨rfl, rfl⟩, rfl⟩, by decide, ⟨⟨rfl, rfl⟩, rfl⟩, by decide⟩

/-- IllegalWordFaults: the word 0000 of an empty program. -/
theorem witness_illegal_word :
    (atPc 0x200).Ready ∧ 0x200 ≤ (atPc 0x200).pc.toNat ∧ (atPc 0x200).pc.toNat ≤ 0xFFE ∧
    decodeWord (beWord ((atPc 0x200).peek (atPc 0x200).pc.toNat)
      ((atPc 0x200).peek ((atPc 0x200).pc.toNat + 1))) = none :=
  ⟨⟨⟨rfl, rfl⟩, rfl⟩, by decide, by decide, by decide⟩

/-- StoppedCoreHasNoCycle: a faulted core with a cycle and with a tick to come, one that steps on by a move that keeps
the fault and one that leaves it, and a halted core. -/
theorem witness_stopped :
    faulted.fault ≠ none ∧ faulted.nextMove = .cycle ∧
    (pending [.tick] faulted).fault ≠ none ∧ (pending [.tick] faulted).nextMove = .tick ∧
    seen (fun t => t.fault) (pending [.ackRedraw] faulted) = some faulted.fault ∧
    seen (fun t => t.fault) (pending [.initMachine] faulted) = some none ∧
    halted.fault = none ∧ halted.running = false ∧ halted.nextMove = .cycle := by decide

/-- FaultsArePrecise: a fault of the fetch, of the decoder and of a handler. -/
theorem witness_faults :
    (atPc 0x200).Ready ∧ seen (fun t => t.fault.isSome) (atPc 0x200) = some true ∧
    (atPc 0x1FF).Ready ∧ seen (fun t => t.fault.isSome) (atPc 0x1FF) = some true ∧
    (placed 0x00EE).Ready ∧ seen (fun t => t.fault.isSome) (placed 0x00EE) = some true :=
  ⟨⟨⟨rfl, rfl⟩, rfl⟩, by decide, ⟨⟨rfl, rfl⟩, rfl⟩, by decide, ⟨⟨rfl, rfl⟩, rfl⟩, by decide⟩

/-- CompletedCycleClearsKey: a completed cycle under each policy, and the one in which FX0A commits. -/
theorem witness_completed_cycle :
    (placed 0x6005).Ready ∧ (placed 0x6005).params.keyClearPolicy = .everyCycle ∧
    seen (fun t => t.fault) (placed 0x6005) = some none ∧
    seen (fun t => t.fault)
      { placed 0x6005 with params := { Config.defaults with keyClearPolicy := .afterWaitOnly } } = some none ∧
    seen (fun t => (t.fault, t.waitingForKey, t.keyDown))
      { (awaiting.setKeyDown (some 7)).setSatisfied true with
        params := { Config.defaults with keyClearPolicy := .afterWaitOnly } } = some (none, false, none) :=
  ⟨⟨⟨rfl, rfl⟩, rfl⟩, rfl, by decide, by decide, by decide⟩

/-- RetPopsOrUnderflows and CallPushesOrOverflows: the empty, the one-entry, the fifteen-entry and the full stack. -/
theorem witness_call_stack :
    seenExec (fun t => t.fault.isSome) .ret (deep 0) = some true ∧
    seenExec (fun t => (t.fault.isSome, t.sp.val)) .ret (deep 1) = some (false, 0) ∧
    seenExec (fun t => (t.fault.isSome, t.sp.val)) .ret (deep 16) = some (false, 15) ∧
    seenExec (fun t => (t.fault.isSome, t.sp.val)) (.call 0x210) (deep 15) = some (false, 16) ∧
    seenExec (fun t => t.fault.isSome) (.call 0x210) (deep 16) = some true := by decide

/-- ReturnUndoesCall: a call from depth 15, and the state it leaves. -/
theorem witness_return_undoes_call :
    ∃ t u : State, (deep 15).sp.val < 16 ∧ exec (.call 0x210) (deep 15) = .next t ∧ u.sp = t.sp ∧
      u.stack = t.stack := by
  refine ⟨_, _, by decide, rfl, rfl, rfl⟩

/-- The skips of SkipsFollowTheirComparison and KeySkipsCompareKeyDown, taken and not. -/
theorem witness_skips :
    seenExec (fun t => t.pc) (.seVxNn 1 0) State.reset = some 0x202 ∧
    seenExec (fun t => t.pc) (.seVxNn 1 1) State.reset = some 0x200 ∧
    seenExec (fun t => t.pc) (.skpVx 1) (State.reset.setKeyDown (some 0)) = some 0x202 ∧
    seenExec (fun t => t.pc) (.sknpVx 1) (State.reset.setKeyDown (some 0)) = some 0x200 := by decide

/-- AddSetsCarry, SubtractsSetNoBorrow: x = F and x ≠ F, the sum 255 and the sum 256, both write orders. -/
theorem witness_flags :
    seenExec (fun t => (t.V 0, t.V vf)) (.addVxVy 0 1) ((State.reset.setV 0 128).setV 1 127) = some (255, 0) ∧
    seenExec (fun t => (t.V 0, t.V vf)) (.addVxVy 0 1) ((State.reset.setV 0 255).setV 1 1) = some (0, 1) ∧
    seenExec (fun t => t.V vf) (.addVxVy 15 15) (State.reset.setV 15 0x80) = some 1 ∧
    State.reset.params.subWriteOrder = .flagThenValue ∧
    seenExec (fun t => (t.V 0, t.V vf)) (.subVxVy 0 1) ((State.reset.setV 0 10).setV 1 3) = some (7, 1) ∧
    seenExec (fun t => t.V vf) (.subnVxVy 15 1)
      { (State.reset.setV 15 3).setV 1 10 with
        params := { Config.defaults with subWriteOrder := .valueThenFlag } } = some 1 := by decide

/-- FontAddressOrFault: the highest digit and the lowest value that is none. -/
theorem witness_font_address :
    seenExec (fun t => (t.idx, t.fault.isSome)) (.ldFVx 1) (State.reset.setV 1 15) = some (75, false) ∧
    seenExec (fun t => t.fault.isSome) (.ldFVx 1) (State.reset.setV 1 16) = some true := by decide

/-- BcdStoresDigitsOrFaults: I at 0x1000, 0x1FF, 0xFFE and, stored, 0x200 and 0xFFD. -/
theorem witness_bcd :
    seenExec (fun t => t.fault.map (·.info)) (.ldBVx 0) (State.reset.setI 0x1000) = some (some 0x1000) ∧
    seenExec (fun t => t.fault.map (·.info)) (.ldBVx 0) (State.reset.setI 0x1FF) = some (some 0x1FF) ∧
    seenExec (fun t => t.fault.map (·.info)) (.ldBVx 0) (State.reset.setI 0xFFE) = some (some 0x1000) ∧
    seenExec (fun t => t.fault) (.ldBVx 0) (State.reset.setI 0x200) = some none ∧
    seenExec (fun t => t.fault) (.ldBVx 0) (State.reset.setI 0xFFD) = some none := by decide

/-- RegistersAreStoredOrFault: the same bounds, for two registers. -/
theorem witness_store_registers :
    seenExec (fun t => t.fault.map (·.info)) (.ldMemVx 1) (State.reset.setI 0x1000) = some (some 0x1000) ∧
    seenExec (fun t => t.fault.map (·.info)) (.ldMemVx 1) (State.reset.setI 0x1FF) = some (some 0x1FF) ∧
    seenExec (fun t => t.fault.map (·.info)) (.ldMemVx 1) (State.reset.setI 0xFFF) = some (some 0x1000) ∧
    seenExec (fun t => t.fault) (.ldMemVx 1) (State.reset.setI 0x200) = some none ∧
    seenExec (fun t => t.fault) (.ldMemVx 1) (State.reset.setI 0xFFE) = some none := by decide

/-- RegistersAreLoadedOrFault: I at 0x1000, 0xFFF and, loaded, 0xFFE and 0. -/
theorem witness_load_registers :
    seenExec (fun t => t.fault.map (·.info)) (.ldVxMem 1) (State.reset.setI 0x1000) = some (some 0x1000) ∧
    seenExec (fun t => t.fault.map (·.info)) (.ldVxMem 1) (State.reset.setI 0xFFF) = some (some 0x1000) ∧
    seenExec (fun t => t.fault) (.ldVxMem 1) (State.reset.setI 0xFFE) = some none ∧
    seenExec (fun t => (t.fault, t.V 1, t.V 2)) (.ldVxMem 1) (State.reset.setI 0) =
      some (none, 0x90, 0) := by decide

/-- StoredCodeIsFetched: a word stored at the lowest and at the highest address. -/
theorem witness_stored_code :
    (∃ t, exec (.ldMemVx 1) (State.reset.setI 0x200) = .next t) ∧
    (∃ t, exec (.ldMemVx 1) (State.reset.setI 0xFFE) = .next t) ∧
    0x200 ≤ (State.reset.setI 0x200).idx.toNat ∧
    (State.reset.setI 0xFFE).idx.toNat + (1 : Reg).val < 0x1000 ∧ (0 : Reg).val < (1 : Reg).val :=
  ⟨⟨_, rfl⟩, ⟨_, rfl⟩, by decide, by decide, by decide⟩

/-- DrawFlipsSpritePixels: the two faults, the empty sprite at an address that does not exist, and the last byte of
memory as a sprite. -/
theorem witness_draw_branches :
    seenExec (fun t => t.fault.map (·.info)) (.drw 1 2 1) (State.reset.setI 0x1000) = some (some 0x1000) ∧
    seenExec (fun t => t.fault.map (·.info)) (.drw 1 2 2) (State.reset.setI 0xFFF) = some (some 0x1000) ∧
    seenExec (fun t => (t.fault, t.redrawPending)) (.drw 1 2 0) (State.reset.setI 0x1000) =
      some (none, true) ∧
    seenExec (fun t => (t.fault, t.redrawPending)) (.drw 1 2 1) (State.reset.setI 0xFFF) =
      some (none, true) := by decide

/-- DrawFlipsSpritePixels: a pixel that a draw sets, one it leaves, and one whose clearing sets VF. -/
theorem witness_draw_pixels :
    State.reset.pixel 0 0 = false ∧
    seenExec (fun t => (t.pixel 0 0, t.pixel 4 0, t.V vf)) (.drw 1 2 1) State.reset = some (true, false, 0) ∧
    (State.reset.poke 0xF00 0x80).pixel 0 0 = true ∧
    seenExec (fun t => (t.pixel 0 0, t.V vf)) (.drw 1 2 1) (State.reset.poke 0xF00 0x80) =
      some (false, 1) := by decide

/-- DoubleDrawRestores: a draw of a glyph, the state it leaves, and a draw there again. -/
theorem witness_double_draw :
    (∀ r < 2, State.reset.idx.toNat + r < 0xF00) ∧
    ∃ t u w, exec (.drw 1 2 2) State.reset = .next t ∧ u.idx = State.reset.idx ∧
      u.params = State.reset.params ∧ (∀ a, u.peek a = t.peek a) ∧
      u.startX 1 = State.reset.startX 1 ∧ u.startY 2 = State.reset.startY 2 ∧
      exec (.drw 1 2 2) u = .next w :=
  ⟨by decide, _, _, _, rfl, by decide, by decide, fun _ => rfl, by decide, by decide, rfl⟩

/-- DoubleDrawRestores (b): a sprite that would land on clear pixels only, and one that clears a pixel. -/
theorem witness_draw_collision :
    (∀ r < 1, State.reset.idx.toNat + r < 0x1000) ∧
    (∀ b < 8, ∀ p ∈ spritePos .wrap 0 0 0 b, State.reset.pixel p.1 p.2 = false) ∧
    seenExec (fun t => t.V vf) (.drw 1 2 1) (State.reset.poke 0xF00 0x10) = some 1 ∧
    seenExec (fun t => t.pixel 3 0) (.drw 1 2 1) (State.reset.poke 0xF00 0x10) = some false := by decide

/-- KeyWaitHasThreePhases: each phase, and the commit with no key. -/
theorem witness_key_wait :
    State.reset.waitingForKey = false ∧ awaiting.waitingForKey = true ∧ awaiting.keyWaitSatisfied = false ∧
    (awaiting.setSatisfied true).keyWaitSatisfied = true ∧ (awaiting.setSatisfied true).keyDown = none ∧
    seenExec (fun t => t.V 3) (.ldVxK 3) ((awaiting.setSatisfied true).setKeyDown (some 15)) = some 15 := by
  decide

/-- OnlyAKeyReportEndsAWait: a waiting core that steps by a cycle, by a key report and by `initialize`. -/
theorem witness_wait :
    awaiting.waitingForKey = true ∧ awaiting.keyWaitSatisfied = false ∧
    seen (fun t => t.waitingForKey) awaiting = some true ∧
    seen (fun t => t.keyWaitSatisfied) (pending [.keyReport (some 7)] awaiting) = some true ∧
    seen (fun t => t.waitingForKey) (pending [.initMachine] awaiting) = some false := by decide

/-- TickCountsBothTimersDown: a live core, a faulted and a halted one. -/
theorem witness_tick :
    (pending [.tick] State.reset).nextMove = .tick ∧ (pending [.tick] State.reset).Live ∧
    (pending [.tick] faulted).nextMove = .tick ∧ ¬ (pending [.tick] faulted).Live ∧
    (pending [.tick] halted).nextMove = .tick ∧ ¬ (pending [.tick] halted).Live :=
  ⟨rfl, ⟨rfl, rfl⟩, rfl, fun h => Option.some_ne_none _ h.1, rfl, fun h => Bool.false_ne_true h.2⟩

/-- HostMovesAreTakenInOrder: moves pending, none pending, and a step. -/
theorem witness_schedule :
    (pending [.tick, .cycle] State.reset).hostMoves = [.tick, .cycle] ∧ State.reset.hostMoves = [] ∧
    seen (fun t => (t.hostMoves, t.rounds)) (pending [.tick, .cycle] State.reset) = some ([.cycle], 0) := by
  decide

/-- CyclesAndTicksRecur: the run is not always one that stops before the tick. -/
theorem witness_tick_recurs :
    ∃ t, Host.Core.run Sys2Proof.core 1 { placed 0x6005 with hostMoves := [.cycle, .tick] } = .next t ∧
      t.nextMove = .tick := ⟨_, rfl, rfl⟩

/-- FairSchedulesAreRounds: two cycles and a tick, over and over, is a fair sequence. -/
theorem witness_fair_schedule : FairSchedule (fun n => if n % 3 = 2 then .tick else .cycle) := by
  intro m hm n
  simp only [List.mem_cons, List.not_mem_nil, or_false] at hm
  rcases hm with rfl | rfl
  · exact ⟨3 * n, by omega, if_neg (by omega)⟩
  · exact ⟨3 * n + 2, by omega, if_pos (by omega)⟩

/-- The rounds end in a cycle and a tick in turn (R135). -/
theorem test_rounds :
    roundMoves (fun _ => [.setKey none]) 4 = [.setKey none, .cycle] ∧
    roundMoves (fun _ => []) 5 = [.tick] := by decide

/-- OnlyFourInstructionsWriteVfImplicitly: VF written as a flag, by a draw and as a destination. -/
theorem witness_vf_writers :
    seenExec (fun t => t.V vf) (.addVxVy 0 0) (State.reset.setV 0 0x80) = some 1 ∧
    seenExec (fun t => t.V vf) (.drw 1 2 1) (State.reset.setV vf 9) = some 0 ∧
    seenExec (fun t => t.V vf) (.ldVxNn vf 5) State.reset = some 5 ∧ State.reset.V vf = 0 := by decide

/-- StateElementsHaveTheirWriters: each element is changed by some handler. -/
theorem witness_element_writers :
    seenExec (fun t => t.pc) (.jp 0x208) State.reset = some 0x208 ∧
    seenExec (fun t => t.idx) (.ldINnn 0x300) State.reset = some 0x300 ∧
    seenExec (fun t => t.dt) (.ldDtVx 0) (State.reset.setV 0 7) = some 7 ∧
    seenExec (fun t => t.st) (.ldStVx 0) (State.reset.setV 0 7) = some 7 ∧
    seenExec (fun t => (t.sp.val, t.stackAt 0)) (.call 0x210) State.reset = some (1, 0x200) ∧
    seenExec (fun t => (t.waitingForKey, t.pc)) (.ldVxK 0) State.reset = some (true, 0x1FE) ∧
    seenExec (fun t => t.redrawPending) (.drw 0 0 0) State.reset = some true ∧
    seenExec (fun t => t.draws) (.rndVxNn 0 1) State.reset = some 1 ∧
    seenExec (fun t => t.fault.isSome) .ret State.reset = some true := by decide

/-- OnlyFourInstructionsStore: a byte that a handler changes, in the framebuffer and below it. -/
theorem witness_stores :
    seenExec (fun t => t.peek 0x202) (.ldBVx 0) ((State.reset.setV 0 234).setI 0x200) = some 4 ∧
    seenExec (fun t => t.peek 0xF00) (.drw 1 2 1) State.reset = some 0xF0 ∧ State.reset.peek 0xF00 = 0 := by
  decide

/-- StepKeepsMemoryCanonical, StepKeepsParameters: the reset state meets the invariant, and it steps; so does one with
a listed byte. -/
theorem witness_memory_invariant :
    (atPc 0x200).MemOk ∧ (∃ t, step (atPc 0x200) = .next t) ∧ (placed 0x6005).MemOk ∧
    (∃ t, step (placed 0x6005) = .next t) :=
  ⟨⟨rfl, fun _ h => absurd h List.not_mem_nil⟩, ⟨_, rfl⟩, ⟨by decide, by decide⟩, ⟨_, rfl⟩⟩

/-- StepKeepsPcAtTheWaitingInstruction: a core that awaits a key meets the invariant, and it steps. -/
theorem witness_await_invariant :
    awaiting.waitingForKey = true ∧ awaiting.AwaitOk ∧ ∃ t, step awaiting = .next t :=
  ⟨rfl, fun _ => ⟨rfl, by decide, 3, by decide⟩, ⟨_, rfl⟩⟩

/-- FontHoldsInEveryReachableState: a program is loaded and its first cycle runs. -/
theorem witness_run :
    ∃ t, Host.Core.run Sys2Proof.core 2
      { State.reset with
        params := Config.defaults, hostMoves := [.loadProgram (some [0x60, 0x05]), .cycle], rounds := 0 } = .next t := ⟨_, rfl⟩

/-- InitializeResetsEveryState: a faulted core. -/
theorem witness_initialize :
    (pending [.initMachine] faulted).nextMove = .initMachine ∧
    seen (fun t => (t.fault, t.pc)) (pending [.initMachine] faulted) = some (none, 0x200) := by decide

/-- LoadProgramCopiesTheRom: each length at its bound. -/
theorem witness_load :
    (pending [.loadProgram none] State.reset).loadOpen = true ∧
    (pending [.loadProgram (some [])] State.reset).nextMove = .loadProgram (some []) ∧
    ([] : List Byte).length = 0 ∧ 3584 < (List.replicate 3585 (0 : Byte)).length ∧
    ¬ 3584 < (List.replicate 3584 (0 : Byte)).length :=
  ⟨rfl, rfl, rfl, by rw [List.length_replicate]; decide, by rw [List.length_replicate]; decide⟩

/-- LoadingIsOpenOnlyAfterInitialize: a load after a cycle, and the steps that leave loading open. -/
theorem witness_load_closed :
    (pending [.loadProgram none] awaiting).nextMove = .loadProgram none ∧
    (pending [.loadProgram none] awaiting).loadOpen = false ∧
    seen (fun t => t.loadOpen) (pending [.initMachine] awaiting) = some true ∧
    seen (fun t => t.loadOpen) (pending [.setKey none] State.reset) = some true ∧
    seen (fun t => t.loadOpen) (placed 0x6005) = some false := by decide

/-- HostMovesWriteOnlyTheirState: each move pending, a key report on a core that waits and on one that does not. -/
theorem witness_moves :
    (pending [.setKey (some 5)] State.reset).nextMove = .setKey (some 5) ∧
    (pending [.keyReport (some 5)] awaiting).nextMove = .keyReport (some 5) ∧
    (pending [.keyReport (some 5)] awaiting).waitingForKey = true ∧
    (pending [.keyReport (some 5)] State.reset).waitingForKey = false ∧
    (pending [.ackRedraw] faulted).nextMove = .ackRedraw ∧
    (pending [.quit] State.reset).nextMove = .quit := by decide

end Sys2Proof.Machine
end

section
/-! The open parameters of spec/00_scope.md R9 along a step. The handlers' part is `exec_keeps`; here are the cycle
around a handler and the host's other moves. -/

namespace Sys2Proof.Machine

/-- A list of stores keeps the open parameters. -/
@[simp] theorem State.pokeAll_params (l : List Store) (s : State) : (s.pokeAll l).params = s.params := by
  rw [State.pokeAll_eq]

/-- `initialize` keeps the open parameters (spec/70_reset_and_hazards.md R147; entry 8). -/
@[simp] theorem initMachine_params (s : State) : (initMachine s).params = s.params := rfl

/-- The end of a cycle keeps the parameters the handler left (spec/40_cycle.md R80, R81). -/
@[simp] theorem endCycle_params (before after : State) : (endCycle before after).params = after.params := by
  rcases endCycle_cases before after with h | h <;> rw [h]
  rfl

/-- A cycle keeps the open parameters, whether it faults or runs a handler (spec/40_cycle.md R82). -/
theorem cycleBody_keeps_params {s t : State} (h : cycleBody s = .next t) : t.params = s.params := by
  rcases cycleBody_cases s with ⟨_, hc⟩ | ⟨_, _, hc⟩ | ⟨i, u, _, _, hu, hc⟩ <;>
    obtain rfl := Host.Outcome.next.inj (h.symm.trans hc)
  · exact State.takeFault_params ..
  · exact State.takeFault_params ..
  · calc (endCycle s.pcForward u).params
      _ = u.params := endCycle_params ..
      _ = s.pcForward.params := (exec_keeps hu).1
      _ = s.params := State.setPc_params ..

/-- Settles O44, by cases on the host's move: a cycle keeps the parameters by `cycleBody_keeps_params`, and every
other move is a chain of state operations that each keep them. -/
theorem stepKeepsParameters : Obligations.StepKeepsParameters := by
  intro s t h
  rcases step_cases h with ⟨_, _, hc⟩ | ⟨_, _, rfl⟩ | ⟨_, rfl⟩ | ⟨bytes, _, _, _, _, rfl⟩ | ⟨k, _, rfl⟩ |
    ⟨k, _, _, rfl⟩ | ⟨_, rfl⟩ | ⟨_, rfl⟩
  case inl => simpa using cycleBody_keeps_params hc
  all_goals simp

end Sys2Proof.Machine
end

section
/-! Who writes what (spec/10_state.md R20 to R34). `exec_cases` says that a handler raises a fault or keeps its frame;
here each state element is led back to the instructions whose frame names it. -/

namespace Sys2Proof.Machine

variable {i : Instr} {s t : State}

/-! ## From a changed element to the frame's list -/

/-- A state element that no fault writes and that a handler changed is one of the instruction's own `destParts`.
`get` reads the element and `p` is its name in the frame. -/
theorem mem_destParts_of_ne {α : Type} {p : Part} {get : State → α}
    (hraise : ∀ f, get (s.raiseIn i f) = get s)
    (hframe : Frame (destRegs i) (destAddrs s i) (destParts i) s t → p ∉ destParts i → get t = get s)
    (h : exec i s = .next t) (hne : get t ≠ get s) : p ∈ destParts i := by
  rcases exec_cases h with ⟨f, _, rfl⟩ | hf
  · exact absurd (hraise f) hne
  · exact Decidable.of_not_not fun hp => hne (hframe hf hp)

/-- A register that a handler changed is one of the instruction's own `destRegs`. -/
theorem mem_destRegs_of_ne {r : Reg} (h : exec i s = .next t) (hne : t.V r ≠ s.V r) : r ∈ destRegs i := by
  rcases exec_cases h with ⟨f, _, rfl⟩ | hf
  · exact absurd rfl hne
  · exact Decidable.of_not_not fun hr => hne (hf.regs r hr)

/-- A handler that changed the fault record is one of an instruction that can fault (spec/60_exceptions.md R126). -/
theorem canFault_of_fault_ne (h : exec i s = .next t) (hne : t.fault ≠ s.fault) : canFault i = true := by
  rcases exec_cases h with ⟨_, hc, _⟩ | hf
  · exact hc
  · exact absurd (hf.fault (by cases i <;> simp [destParts])) hne

/-! ## Which instructions list an element -/

/-- VF is a destination of the flag writers, of DRW and of those that name it in their own field (R20, R21). -/
theorem vf_mem_destRegs (h : vf ∈ destRegs i) :
    (∃ x y, i = .addVxVy x y ∨ i = .subVxVy x y ∨ i = .subnVxVy x y) ∨ (∃ x y n, i = .drw x y n) ∨
    (∃ nn, i = .ldVxNn vf nn ∨ i = .addVxNn vf nn ∨ i = .rndVxNn vf nn) ∨
    (∃ y, i = .ldVxVy vf y ∨ i = .orVxVy vf y ∨ i = .andVxVy vf y ∨ i = .xorVxVy vf y ∨
      i = .shrVx vf y ∨ i = .shlVx vf y) ∨
    i = .ldVxDt vf ∨ i = .ldVxK vf ∨ i = .ldVxMem vf := by
  cases i
  case ldVxMem x =>
    have hx : x = vf := Fin.ext (Nat.le_antisymm (Nat.le_of_lt_succ x.isLt) (mem_regsUpTo.mp h))
    simp [hx]
  all_goals simp_all [destRegs]

/-- PC is listed by control transfer, the skips and FX0A (R24). -/
theorem pc_mem_destParts (h : .pc ∈ destParts i) :
    i = .ret ∨ (∃ a, i = .jp a ∨ i = .call a ∨ i = .jpV0Nnn a) ∨
      (∃ x nn, i = .seVxNn x nn ∨ i = .sneVxNn x nn) ∨ (∃ x y, i = .seVxVy x y ∨ i = .sneVxVy x y) ∨
      ∃ x, i = .skpVx x ∨ i = .sknpVx x ∨ i = .ldVxK x := by
  cases i <;> simp_all [destParts]

/-- I is listed by LD I, ADD I and LD F (R26). -/
theorem idx_mem_destParts (h : .idx ∈ destParts i) :
    (∃ a, i = .ldINnn a) ∨ ∃ x, i = .addIVx x ∨ i = .ldFVx x := by
  cases i <;> simp_all [destParts]

theorem dt_mem_destParts (h : .dt ∈ destParts i) : ∃ x, i = .ldDtVx x := by
  cases i <;> simp_all [destParts]

theorem st_mem_destParts (h : .st ∈ destParts i) : ∃ x, i = .ldStVx x := by
  cases i <;> simp_all [destParts]

theorem callStack_mem_destParts (h : .callStack ∈ destParts i) : i = .ret ∨ ∃ a, i = .call a := by
  cases i <;> simp_all [destParts]

theorem waitingForKey_mem_destParts (h : .waitingForKey ∈ destParts i) : ∃ x, i = .ldVxK x := by
  cases i <;> simp_all [destParts]

theorem keyWaitSatisfied_mem_destParts (h : .keyWaitSatisfied ∈ destParts i) : ∃ x, i = .ldVxK x := by
  cases i <;> simp_all [destParts]

theorem redrawPending_mem_destParts (h : .redrawPending ∈ destParts i) : i = .cls ∨ ∃ x y n, i = .drw x y n := by
  cases i <;> simp_all [destParts]

theorem draws_mem_destParts (h : .draws ∈ destParts i) : ∃ x nn, i = .rndVxNn x nn := by
  cases i <;> simp_all [destParts]

theorem canFault_cases (h : canFault i = true) :
    i = .ret ∨ (∃ a, i = .call a) ∨ (∃ x y n, i = .drw x y n) ∨
      ∃ x, i = .ldFVx x ∨ i = .ldBVx x ∨ i = .ldMemVx x ∨ i = .ldVxMem x ∨ i = .ldVxK x := by
  cases i <;> simp_all [canFault]

/-! ## The elements whose writer needs more than the frame -/

/-- No handler opens or closes the time of loading (entry 2). -/
theorem exec_keeps_loadOpen (h : exec i s = .next t) : t.loadOpen = s.loadOpen := by
  rcases exec_cases h with ⟨_, _, rfl⟩ | hf
  · rfl
  · exact hf.loadOpen (by cases i <;> simp [destParts])

/-- A handler that changes `waitingForKey` is that of FX0A (R31). -/
theorem exec_waitingForKey_writer (h : exec i s = .next t) (hne : t.waitingForKey ≠ s.waitingForKey) :
    ∃ x, i = .ldVxK x :=
  waitingForKey_mem_destParts (mem_destParts_of_ne (fun _ => rfl) Frame.waitingForKey h hne)

/-- A handler that changes PC is one that lists it, or it raised a fault, which takes PC back to the instruction
(spec/40_cycle.md R80). -/
theorem exec_pc_writer (h : exec i s = .next t) (hne : t.pc ≠ s.pc) :
    .pc ∈ destParts i ∨ ∃ f, t.fault = some f ∧ f.pc = t.pc ∧ t.pc = s.pc - 2 := by
  rcases exec_cases h with ⟨f, _, rfl⟩ | hf
  · exact .inr ⟨_, rfl, rfl, rfl⟩
  · exact .inl (Decidable.of_not_not fun hp => hne (hf.pc hp))

/-- A pop leaves the entries of the stack (R29). -/
@[simp] theorem State.popToPc_stack (s : State) : s.popToPc.stack = s.stack := by
  unfold State.popToPc
  split <;> rfl

/-- RET leaves the entries of the stack, whether it returns or faults (R29). -/
theorem exec_ret_stack (h : exec .ret s = .next t) : t.stack = s.stack := by
  obtain rfl := Host.Outcome.next.inj h
  rcases s.guarded_cases .ret (if s.sp.val = 0 then some (.stackUnderflow, 0) else none) State.popToPc with
    ⟨f, _, hg⟩ | ⟨_, hg⟩ <;> rw [hg]
  · rfl
  · exact s.popToPc_stack

/-- A handler that changes an entry of the stack is that of CALL (R29): RET is the other one with the stack in its
frame, and it moves the depth only. -/
theorem exec_stack_writer (h : exec i s = .next t) (hne : t.stack ≠ s.stack) : ∃ a, i = .call a := by
  have hp : .callStack ∈ destParts i :=
    mem_destParts_of_ne (get := State.stack) (fun _ => rfl) (fun hf hp => (hf.callStack hp).1) h hne
  rcases callStack_mem_destParts hp with rfl | hcall
  · exact absurd (exec_ret_stack h) hne
  · exact hcall

/-- A handler that changes the depth of the stack is that of RET or CALL (R29). -/
theorem exec_sp_writer (h : exec i s = .next t) (hne : t.sp ≠ s.sp) : i = .ret ∨ ∃ a, i = .call a :=
  callStack_mem_destParts
    (mem_destParts_of_ne (get := State.sp) (fun _ => rfl) (fun hf hp => (hf.callStack hp).2) h hne)

/-! ## The statements -/

/-- Settles O38: a changed VF is among the instruction's `destRegs`, and `vf_mem_destRegs` lists the instructions
that have it there. -/
theorem onlyFourInstructionsWriteVfImplicitly : Obligations.OnlyFourInstructionsWriteVfImplicitly :=
  fun _ _ _ h hne => vf_mem_destRegs (mem_destRegs_of_ne h hne)

/-- Settles O39, element by element: a changed element is among the instruction's `destParts` (or, for the fault record,
the instruction can fault), and the lists name the instructions. -/
theorem stateElementsHaveTheirWriters : Obligations.StateElementsHaveTheirWriters := by
  intro i s t h
  obtain ⟨hparams, hkey, hrunning⟩ := exec_keeps h
  obtain ⟨hmoves, hrounds⟩ := exec_keeps_schedule h
  refine ⟨fun hne => ?pc, fun hne => ?idx, fun hne => ?dt, fun hne => ?st, exec_stack_writer h, exec_sp_writer h,
    fun hne => ?wait, fun hne => ?redraw, fun hne => ?draws, fun hne => canFault_cases (canFault_of_fault_ne h hne),
    hkey, hrunning, hparams, hmoves, hrounds, exec_keeps_loadOpen h⟩
  case pc => simpa only [or_assoc] using (exec_pc_writer h hne).imp_left pc_mem_destParts
  case idx => exact idx_mem_destParts (mem_destParts_of_ne (fun _ => rfl) Frame.idx h hne)
  case dt => exact dt_mem_destParts (mem_destParts_of_ne (fun _ => rfl) Frame.dt h hne)
  case st => exact st_mem_destParts (mem_destParts_of_ne (fun _ => rfl) Frame.st h hne)
  case wait =>
    rcases hne with hne | hne
    · exact exec_waitingForKey_writer h hne
    · exact keyWaitSatisfied_mem_destParts (mem_destParts_of_ne (fun _ => rfl) Frame.keyWaitSatisfied h hne)
  case redraw => exact redrawPending_mem_destParts (mem_destParts_of_ne (fun _ => rfl) Frame.redrawPending h hne)
  case draws => exact draws_mem_destParts (mem_destParts_of_ne (fun _ => rfl) Frame.draws h hne)

end Sys2Proof.Machine
end

section
/-! The wait for a key along a step (spec/10_state.md R36, spec/40_cycle.md R83): the invariant `State.AwaitOk` rests on
PC, memory, `waitingForKey` and `loadOpen`, so a move that leaves them keeps it; a cycle that ends in the wait has run
an FX0A, which rewound PC. -/

namespace Sys2Proof.Machine

/-- The fetch range depends on PC alone (spec/20_memory.md R53). -/
theorem State.fetchOk_congr {s t : State} (hpc : t.pc = s.pc) : t.fetchOk = s.fetchOk := by
  rw [State.fetchOk, State.fetchOk, hpc]

/-- The fetched word depends on PC and memory alone (spec/20_memory.md R53). -/
theorem State.fetchWord_congr {s t : State} (hpc : t.pc = s.pc) (hmem : ∀ a, t.peek a = s.peek a) :
    t.fetchWord = s.fetchWord := by
  rw [State.fetchWord, State.fetchWord, hpc, hmem, hmem]

/-- The invariant carries over to a state that agrees on what it reads; loading may be closed in between. -/
theorem State.AwaitOk.congr {s t : State} (h : s.AwaitOk) (hw : t.waitingForKey = s.waitingForKey)
    (hopen : s.loadOpen = false → t.loadOpen = false) (hpc : t.pc = s.pc) (hmem : ∀ a, t.peek a = s.peek a) :
    t.AwaitOk := by
  intro ht
  obtain ⟨hl, hf, x, hx⟩ := h (hw ▸ ht)
  exact ⟨hopen hl, State.fetchOk_congr hpc ▸ hf, x, State.fetchWord_congr hpc hmem ▸ hx⟩

/-- A core that does not wait meets the invariant. -/
theorem State.AwaitOk.of_not_waiting {s : State} (h : s.waitingForKey = false) : s.AwaitOk :=
  fun hw => absurd hw (by simp [h])

/-- The end of a cycle keeps the invariant, since it touches `keyDown` only (spec/40_cycle.md R81). -/
theorem State.AwaitOk.endCycle {after : State} (h : after.AwaitOk) (before : State) :
    (endCycle before after).AwaitOk := by
  rcases endCycle_cases before after with he | he <;> rw [he]
  · exact h
  · exact h.congr rfl id rfl fun _ => rfl

/-- FX0A stores nothing (spec/45_keys_timers.md R124). -/
theorem exec_ldVxK_peek {x : Reg} {s t : State} (h : exec (.ldVxK x) s = .next t) (a : Nat) :
    t.peek a = s.peek a := by
  rcases exec_cases h with ⟨_, _, rfl⟩ | hf
  · rfl
  · exact hf.mem a List.not_mem_nil

/-- An FX0A that leaves the core waiting has rewound PC: it started the wait, went on with it, or faulted
(spec/45_keys_timers.md R124). -/
theorem exec_ldVxK_pc_of_waiting {x : Reg} {s t : State} (h : exec (.ldVxK x) s = .next t)
    (hw : t.waitingForKey = true) : t.pc = s.pc - 2 := by
  have h : execLdVxK x s = .next t := h
  unfold execLdVxK at h
  split at h
  · split at h
    · split at h <;> obtain rfl := Host.Outcome.next.inj h
      · rfl
      · exact absurd hw Bool.false_ne_true
    · exact Host.Outcome.next.inj h ▸ rfl
  · exact Host.Outcome.next.inj h ▸ rfl

/-- A cycle keeps the invariant once loading is closed. Where its handler leaves the core waiting, that handler is an
FX0A: it is the one that waited before, or it is what set `waitingForKey`. -/
theorem cycleBody_keeps_awaitOk {s t : State} (hs : s.AwaitOk) (hopen : s.loadOpen = false)
    (h : cycleBody s = .next t) : t.AwaitOk := by
  rcases cycleBody_cases s with ⟨hf, hc⟩ | ⟨_, _, hc⟩ | ⟨i, u, hf, hd, hu, hc⟩ <;>
    obtain rfl := Host.Outcome.next.inj (h.symm.trans hc)
  · exact hs.congr rfl id rfl fun _ => rfl
  · exact hs.congr rfl id rfl fun _ => rfl
  · refine State.AwaitOk.endCycle (fun hw => ?_) _
    obtain ⟨x, rfl⟩ : ∃ x, i = .ldVxK x := by
      by_cases hsw : s.waitingForKey = true
      · obtain ⟨_, _, x, hx⟩ := hs hsw
        exact ⟨x, Option.some.inj (hd.symm.trans hx)⟩
      · exact exec_waitingForKey_writer hu fun heq => hsw (heq.symm.trans hw)
    have hpc : u.pc = s.pc := (exec_ldVxK_pc_of_waiting hu hw).trans (BitVec.add_sub_cancel s.pc 2)
    have hmem : ∀ a, u.peek a = s.peek a := fun a => (exec_ldVxK_peek hu a).trans (State.setPc_peek ..)
    exact ⟨(exec_keeps_loadOpen hu).trans hopen, State.fetchOk_congr hpc ▸ hf, x,
      State.fetchWord_congr hpc hmem ▸ hd⟩

/-- Settles O42, by cases on the host's move: a cycle keeps the invariant by `cycleBody_keeps_awaitOk`, `initialize` ends
the wait, a load needs loading open, which it is not in a wait, and every other move leaves what the invariant reads. -/
theorem stepKeepsPcAtTheWaitingInstruction : Obligations.StepKeepsPcAtTheWaitingInstruction := by
  intro s t hs h
  rcases step_cases h with ⟨_, _, hc⟩ | ⟨_, _, rfl⟩ | ⟨_, rfl⟩ | ⟨bytes, _, hopen, _, _, rfl⟩ | ⟨k, _, rfl⟩ |
    ⟨k, _, _, rfl⟩ | ⟨_, rfl⟩ | ⟨_, rfl⟩
  · have hclosed : (s.takeMove.setLoadOpen false).AwaitOk := hs.congr rfl (fun _ => rfl) rfl fun _ => rfl
    exact cycleBody_keeps_awaitOk hclosed rfl hc
  · exact hs.congr rfl (fun _ => rfl) rfl fun _ => rfl
  · exact State.AwaitOk.of_not_waiting rfl
  · have hidle : s.waitingForKey = false := by
      by_contra hw
      obtain ⟨hclosed, _⟩ := hs (Bool.eq_true_of_not_eq_false hw)
      exact absurd hopen (by simp [hclosed])
    refine State.AwaitOk.of_not_waiting ?_
    rw [State.pokeAll_eq]
    exact hidle
  all_goals exact hs.congr rfl id rfl fun _ => rfl

end Sys2Proof.Machine
end

section
/-! The state after `initialize` (spec/10_state.md R40). -/

namespace Sys2Proof.Machine

/-- Below the end of the font an unlisted address reads as the font (R37, R40). -/
theorem resetByte_font (p : Config.Params) {a : Nat} (h : a < 80) : resetByte p a = p.fontData[a] := by
  simp [resetByte, Config.fontBase, h]

/-- Above the font an unlisted address reads as zero (R40). -/
theorem resetByte_zero (p : Config.Params) {a : Nat} (h : 80 ≤ a) : resetByte p a = 0 := by
  simp [resetByte, Config.fontBase, h]

/-- Where nothing is listed, memory reads as `initialize` left it (R40; entry 9). -/
theorem State.peek_of_mem_nil {s : State} (h : s.mem = []) (a : Nat) : s.peek a = resetByte s.params a := by
  rw [State.peek, h, Memory.lookup, Option.getD_none]

/-- Every general register is 0 after `initialize` (R40). -/
theorem State.reset_V (r : Reg) : State.reset.V r = 0 := Vector.getElem_replicate r.isLt

/-- Every entry of the call stack is 0 after `initialize` (R40). -/
theorem State.reset_stackAt {k : Nat} (h : k < 16) : State.reset.stackAt k = 0 := by
  simp [State.stackAt, State.reset, h]

/-- Settles O45: registers, stack and memory by their lemmas, every other element by its value in `State.reset`. -/
theorem resetStateIsAsSpecified : Obligations.ResetStateIsAsSpecified :=
  ⟨State.reset_V, rfl, rfl, rfl, rfl, rfl, fun _ => State.reset_stackAt,
    fun a h => (State.peek_of_mem_nil rfl a).trans (resetByte_font _ h),
    fun a h _ => (State.peek_of_mem_nil rfl a).trans (resetByte_zero _ h), rfl, rfl, rfl, rfl, rfl, rfl⟩

/-- Settles O46: after `initialize` memory lists nothing and the core does not wait. -/
theorem resetMeetsTheInvariants : Obligations.ResetMeetsTheInvariants :=
  fun _ _ _ => ⟨⟨rfl, fun _ hc => absurd hc List.not_mem_nil⟩, State.AwaitOk.of_not_waiting rfl⟩

end Sys2Proof.Machine
end

section
/-! Stores (spec/20_memory.md R48 to R52). `StoresWritable` says of an effect what both memory statements need: it stores
at writable addresses only. It is proved once for every handler, from the check of each storing instruction. -/

namespace Sys2Proof.Machine

variable {i : Instr} {s t u : State}

/-! ## Effects that store at writable addresses only -/

/-- What took `s` to `t` changed no byte outside 0x200 to 0xFFF, and memory that was canonical with only writable
addresses listed still is (spec/20_memory.md R52). -/
structure StoresWritable (s t : State) : Prop where
  memOk : s.MemOk → t.MemOk
  outside : ∀ a, ¬ (Config.progBase ≤ a ∧ a < Config.memSize) → t.peek a = s.peek a

/-- The invariant of memory rests on the list and the parameters. -/
theorem State.MemOk.congr (h : s.MemOk) (hm : t.mem = s.mem) (hp : t.params = s.params) : t.MemOk := by
  unfold State.MemOk
  rwa [hm, hp]

namespace StoresWritable

/-- An effect that leaves the list and the parameters stores nothing. -/
theorem of_mem (hm : t.mem = s.mem) (hp : t.params = s.params) : StoresWritable s t where
  memOk h := h.congr hm hp
  outside a _ := by rw [State.peek, State.peek, hm, hp]

theorem trans (h : StoresWritable s t) (k : StoresWritable t u) : StoresWritable s u where
  memOk hs := k.memOk (h.memOk hs)
  outside a ha := (k.outside a ha).trans (h.outside a ha)

/-- A register write stores nothing. -/
theorem setV (x : Reg) (b : Byte) (s : State) : StoresWritable s (s.setV x b) := of_mem rfl rfl

/-- A redraw request stores nothing. -/
theorem setRedraw (b : Bool) (s : State) : StoresWritable s (s.setRedraw b) := of_mem rfl rfl

/-- Stores at writable addresses. -/
theorem pokeAll {l : List Store} (hl : ∀ c ∈ l, Config.progBase ≤ c.1 ∧ c.1 < Config.memSize) (s : State) :
    StoresWritable s (s.pokeAll l) where
  memOk := State.memOk_pokeAll hl
  outside a ha := by
    refine s.peek_pokeAll_of_notMem l fun hmem => ha ?_
    obtain ⟨c, hc, rfl⟩ := List.mem_map.mp hmem
    exact hl c hc

/-- One store at a writable address. -/
theorem poke {a : Nat} (ha : Config.progBase ≤ a ∧ a < Config.memSize) (w : Byte) (s : State) :
    StoresWritable s (s.poke a w) :=
  pokeAll (l := [(a, w)]) (by simpa using ha) s

/-- Plotting a pixel of the screen stores in the framebuffer (spec/44_display.md R117). -/
theorem plot {p : Nat × Nat} (hp : p.1 < 64 ∧ p.2 < 32) (s : State) : StoresWritable s (s.plot p) := by
  have hw : Config.progBase ≤ fbAddr p.1 p.2 ∧ fbAddr p.1 p.2 < Config.memSize :=
    (fbAddr_range hp.1 hp.2).imp_left (le_trans (by decide))
  unfold State.plot
  dsimp only
  split
  · exact poke hw _ s
  · exact (setV vf 1 s).trans (poke hw _ _)

theorem plotAll {pts : List (Nat × Nat)} (hp : ∀ p ∈ pts, p.1 < 64 ∧ p.2 < 32) (s : State) :
    StoresWritable s (s.plotAll pts) := by
  induction pts generalizing s with
  | nil => exact of_mem rfl rfl
  | cons p l ih =>
    exact (plot (hp p List.mem_cons_self) s).trans (ih (fun q hq => hp q (List.mem_cons_of_mem _ hq)) _)

/-- A draw stores in the framebuffer. -/
theorem drawRows (x0 y0 n : Nat) (s : State) : StoresWritable s (s.drawRows x0 y0 n) := by
  rw [State.drawRows_eq_plotAll]
  exact plotAll (fun _ => drawnPoints_range) s

/-- A guarded handler raises a fault, which stores nothing, or runs with its check passed. -/
theorem of_guarded {check : Option Failure} {run : State → State}
    (h : Host.Outcome.next (s.guarded i check run) = (.next t : Result))
    (hrun : check = none → StoresWritable s (run s)) : StoresWritable s t := by
  obtain rfl := Host.Outcome.next.inj h
  rcases s.guarded_cases i check run with ⟨f, _, hg⟩ | ⟨hc, hg⟩ <;> rw [hg]
  · exact of_mem rfl rfl
  · exact hrun hc

end StoresWritable

/-! ## The handlers that store nothing -/

/-- The instructions that store (spec/20_memory.md R48). -/
def storesMemory : Instr → Bool
  | .cls | .drw _ _ _ | .ldBVx _ | .ldMemVx _ => true
  | _ => false

@[simp] theorem State.skipIf_mem (b : Bool) (s : State) : (s.skipIf b).mem = s.mem := by
  cases b <;> rfl

@[simp] theorem State.push_mem (a : Word) (s : State) : (s.push a).mem = s.mem := by
  unfold State.push
  split <;> rfl

@[simp] theorem State.popToPc_mem (s : State) : s.popToPc.mem = s.mem := by
  unfold State.popToPc
  split <;> rfl

@[simp] theorem State.writeWithFlag_mem (order : Config.SubWriteOrder) (x : Reg) (v : Byte) (f : Bool) (s : State) :
    (s.writeWithFlag order x v f).mem = s.mem := by
  cases order <;> rfl

@[simp] theorem State.foldl_loadReg_mem (ks : List Reg) (s : State) : (ks.foldl State.loadReg s).mem = s.mem := by
  induction ks generalizing s with
  | nil => rfl
  | cons k ks ih => exact ih _

/-- A guarded handler leaves the list when its run does. -/
theorem State.guarded_mem {check : Option Failure} {run : State → State} (hrun : (run s).mem = s.mem) :
    (s.guarded i check run).mem = s.mem := by
  cases check with
  | none => exact hrun
  | some f => rfl

/-- FX0A leaves the list of memory (spec/45_keys_timers.md R124). -/
theorem execLdVxK_mem {x : Reg} (h : execLdVxK x s = .next t) : t.mem = s.mem := by
  unfold execLdVxK at h
  split at h
  · split at h
    · split at h <;> exact Host.Outcome.next.inj h ▸ rfl
    · exact Host.Outcome.next.inj h ▸ rfl
  · exact Host.Outcome.next.inj h ▸ rfl

/-- Every handler but the four that store leaves the list of memory. -/
theorem exec_keeps_mem (hi : storesMemory i = false) (h : exec i s = .next t) : t.mem = s.mem := by
  cases i
  case ldVxK => exact execLdVxK_mem h
  case ret => exact Host.Outcome.next.inj h ▸ State.guarded_mem s.popToPc_mem
  case call => exact Host.Outcome.next.inj h ▸ State.guarded_mem (s.push_mem _)
  case ldFVx => exact Host.Outcome.next.inj h ▸ State.guarded_mem rfl
  case ldVxMem => exact Host.Outcome.next.inj h ▸ State.guarded_mem (State.foldl_loadReg_mem _ s)
  case cls | drw | ldBVx | ldMemVx => cases hi
  all_goals
    obtain rfl := Host.Outcome.next.inj h
    simp

/-! ## Every handler -/

/-- A handler stores at writable addresses only: LD B and LD [I] check theirs first, and CLS and DRW store in the
framebuffer (spec/20_memory.md R48, R52, R54). -/
theorem exec_storesWritable (h : exec i s = .next t) : StoresWritable s t := by
  cases hi : storesMemory i with
  | false => exact .of_mem (exec_keeps_mem hi h) (exec_keeps h).1
  | true =>
    cases i with
    | cls =>
      obtain rfl := Host.Outcome.next.inj h
      refine (StoresWritable.pokeAll (fun c hc => ?_) s).trans (.setRedraw true _)
      obtain ⟨a, ha, rfl⟩ := List.mem_map.mp hc
      have hrange := mem_fbAddrs.mp ha
      show 0x200 ≤ a ∧ a < 0x1000
      omega
    | drw =>
      exact StoresWritable.of_guarded h fun _ =>
        ((StoresWritable.setV vf 0 s).trans (.drawRows _ _ _ _)).trans (.setRedraw true _)
    | ldBVx =>
      exact StoresWritable.of_guarded h fun hc =>
        .pokeAll (fun _ hmem => writeChecks_none.mp hc _ (List.of_mem_zip hmem).1) s
    | ldMemVx =>
      exact StoresWritable.of_guarded h fun hc =>
        .pokeAll (fun _ hmem => writeChecks_none.mp hc _ (State.mem_storeRegs hmem)) s
    | _ => cases hi

/-! ## A step -/

/-- The end of a cycle keeps memory (spec/40_cycle.md R81). -/
theorem State.MemOk.endCycle {after : State} (h : after.MemOk) (before : State) : (endCycle before after).MemOk := by
  rcases endCycle_cases before after with he | he <;> rw [he]
  · exact h
  · exact h.congr rfl rfl

/-- A cycle keeps memory canonical, whether it faults or runs a handler (spec/40_cycle.md R82). -/
theorem cycleBody_keeps_memOk (hs : s.MemOk) (h : cycleBody s = .next t) : t.MemOk := by
  rcases cycleBody_cases s with ⟨_, hc⟩ | ⟨_, _, hc⟩ | ⟨i, u, _, _, hu, hc⟩ <;>
    obtain rfl := Host.Outcome.next.inj (h.symm.trans hc)
  · exact hs.congr rfl rfl
  · exact hs.congr rfl rfl
  · have hadvanced : s.pcForward.MemOk := hs.congr rfl rfl
    exact ((exec_storesWritable hu).memOk hadvanced).endCycle _

/-- `initialize` leaves nothing listed (spec/70_reset_and_hazards.md R147). -/
theorem initMachine_memOk (s : State) : (initMachine s).MemOk :=
  ⟨rfl, fun _ hc => absurd hc List.not_mem_nil⟩

/-- A ROM that fits goes to writable addresses (spec/70_reset_and_hazards.md R148). -/
theorem romStores_writable {rom : List Byte} (hlen : rom.length ≤ Config.romMax) {c : Store}
    (hc : c ∈ romStores rom) : Config.progBase ≤ c.1 ∧ c.1 < Config.memSize := by
  obtain ⟨k, hk, heq⟩ := List.mem_map.mp (List.of_mem_zip hc).1
  have hk := List.mem_range.mp hk
  simp only [Config.romMax, Config.progBase, Config.memSize] at hlen heq ⊢
  omega

/-- Settles O41, by cases on the host's move: a cycle keeps the invariant by `cycleBody_keeps_memOk`, `initialize` leaves
nothing listed, a load stores at writable addresses, and every other move leaves memory. -/
theorem stepKeepsMemoryCanonical : Obligations.StepKeepsMemoryCanonical := by
  intro s t hs h
  have htaken : s.takeMove.MemOk := hs.congr rfl rfl
  rcases step_cases h with ⟨_, _, hc⟩ | ⟨_, _, rfl⟩ | ⟨_, rfl⟩ | ⟨bytes, _, _, _, hlen, rfl⟩ | ⟨k, _, rfl⟩ |
    ⟨k, _, _, rfl⟩ | ⟨_, rfl⟩ | ⟨_, rfl⟩
  case inl =>
    have hclosed : (s.takeMove.setLoadOpen false).MemOk := htaken.congr rfl rfl
    exact cycleBody_keeps_memOk hclosed hc
  case inr.inr.inl => exact initMachine_memOk _
  case inr.inr.inr.inl =>
    exact (State.memOk_pokeAll (fun _ => romStores_writable hlen) htaken).congr rfl rfl
  all_goals exact hs.congr rfl rfl

/-! ## Which instruction stored -/

/-- A byte that a handler changed is at one of the instruction's own `destAddrs`. -/
theorem mem_destAddrs_of_ne {a : Nat} (h : exec i s = .next t) (hne : t.peek a ≠ s.peek a) : a ∈ destAddrs s i := by
  rcases exec_cases h with ⟨_, _, rfl⟩ | hf
  · exact absurd rfl hne
  · exact Decidable.of_not_not fun ha => hne (hf.mem a ha)

/-- LD B and LD [I] list addresses to store to, and CLS and DRW list framebuffer bytes; no other instruction lists any
(spec/20_memory.md R48). -/
theorem destAddrs_cases {a : Nat} (h : a ∈ destAddrs s i) :
    (∃ x, i = .ldBVx x ∨ i = .ldMemVx x) ∨ 0xF00 ≤ a ∧ (i = .cls ∨ ∃ x y n, i = .drw x y n) := by
  cases i with
  | ldBVx x => exact .inl ⟨x, .inl rfl⟩
  | ldMemVx x => exact .inl ⟨x, .inr rfl⟩
  | cls => exact .inr ⟨(mem_fbAddrs.mp h).1, .inl rfl⟩
  | drw x y n => exact .inr ⟨(spriteBytes_range h).1, .inr ⟨x, y, n, rfl⟩⟩
  | _ => exact absurd h List.not_mem_nil

/-- Settles O40: the changed byte is writable by `exec_storesWritable`, and `destAddrs_cases` names the instruction. -/
theorem onlyFourInstructionsStore : Obligations.OnlyFourInstructionsStore := by
  intro i s t a h hne
  obtain ⟨hlo, hhi⟩ : Config.progBase ≤ a ∧ a < Config.memSize :=
    Decidable.of_not_not fun ha => hne ((exec_storesWritable h).outside a ha)
  exact ⟨hlo, hhi, destAddrs_cases (mem_destAddrs_of_ne h hne)⟩

end Sys2Proof.Machine
end

section
/-! The fetch (spec/20_memory.md R53, R59). -/

namespace Sys2Proof.Machine

/-- A fetch out of range takes the fault FetchOutOfRange (spec/20_memory.md R53). -/
theorem cycleBody_of_fetchOk_false {s : State} (h : s.fetchOk = false) :
    cycleBody s = .next (s.takeFault .fetchOutOfRange s.pc none s.pc.toNat) := by
  simp [cycleBody, h]

/-- Settles O7: the ready core runs a cycle, whose fetch is out of range. -/
theorem fetchOutsideProgramSpaceFaults : Obligations.FetchOutsideProgramSpaceFaults := by
  intro s hready hpc
  have hfetch : (s.takeMove.setLoadOpen false).fetchOk = false := by
    rw [← Bool.not_eq_true, State.fetchOk_iff]
    show ¬ (0x200 ≤ s.pc.toNat ∧ s.pc.toNat ≤ 0xFFE)
    omega
  rw [step_of_ready hready, cycleBody_of_fetchOk_false hfetch]
  rfl

/-- LD [I] over writable addresses completes, and each stored register is at its address
(spec/43_index_memory.md R113). -/
theorem exec_ldMemVx_peek {x k : Reg} {s t : State} (hlo : 0x200 ≤ s.idx.toNat)
    (hhi : s.idx.toNat + x.val < 0x1000) (h : exec (.ldMemVx x) s = .next t) (hk : k.val ≤ x.val) :
    t.peek (s.idx.toNat + k.val) = s.V k := by
  obtain rfl := Host.Outcome.next.inj h
  have hcheck : writeChecks (s.effAddrs (x.val + 1)) = none := by
    rw [writeChecks_none, State.effAddrs_range (Nat.succ_pos _)]
    exact ⟨hlo, hhi⟩
  rw [hcheck, State.guarded_none]
  exact s.peek_storeRegs hk

/-- Settles O29: the two bytes the fetch reads are those of Vk and V(k+1), by `exec_ldMemVx_peek`. -/
theorem storedCodeIsFetched : Obligations.StoredCodeIsFetched := by
  intro x k s t hlo hhi hkx h
  have hpc : (BitVec.ofNat 16 (s.idx.toNat + k.val)).toNat = s.idx.toNat + k.val :=
    Nat.mod_eq_of_lt (by omega)
  have hnext : (Fin.ofNat 16 (k.val + 1)).val = k.val + 1 := Nat.mod_eq_of_lt (by omega)
  have hhigh := exec_ldMemVx_peek hlo hhi h hkx.le
  have hlow := exec_ldMemVx_peek (k := Fin.ofNat 16 (k.val + 1)) hlo hhi h (by omega)
  rw [hnext, ← Nat.add_assoc] at hlow
  rw [State.fetchWord, State.setPc_pc, hpc, State.setPc_peek, State.setPc_peek, hhigh, hlow]

end Sys2Proof.Machine
end

section
/-! The opcode map read as a table (spec/30_encoding.md R67 to R69): no two rows accept one word, so `decodeWord` returns
the row that accepts, whatever the order of the rows; and a row's mask and match are conditions on the word's fields. -/

namespace Sys2Proof

variable {w : Word} {i : Instr} {r q : OpRow} {j k : Nat}

/-! ## The row that accepts a word -/

/-- Of any two rows, the matches differ in a bit that both rows test. -/
theorem opRows_pairwise_differ :
    opRows.Pairwise fun r q => (r.mtch ^^^ q.mtch) &&& (r.mask &&& q.mask) ≠ 0 := by decide

/-- No two places of the table hold rows that accept one word (R68). -/
theorem opRows_accepts_unique (hr : opRows[k]? = some r) (hq : opRows[j]? = some q)
    (hrw : r.accepts w = true) (hqw : q.accepts w = true) : j = k := by
  obtain ⟨hk, rfl⟩ := List.getElem?_eq_some_iff.mp hr
  obtain ⟨hj, rfl⟩ := List.getElem?_eq_some_iff.mp hq
  have hdiffer := List.pairwise_iff_getElem.mp opRows_pairwise_differ
  rcases Nat.lt_trichotomy j k with hlt | heq | hgt
  · exact absurd (OpRow.accepts_agree hqw hrw) (hdiffer j k hj hk hlt)
  · exact heq
  · exact absurd (OpRow.accepts_agree hrw hqw) (hdiffer k j hk hj hgt)

/-- A decoded instruction was read by a row that accepts the word. -/
theorem exists_row_of_decodeWord (h : decodeWord w = some i) :
    ∃ r ∈ opRows, r.accepts w = true ∧ r.build w = i := by
  obtain ⟨r, hfind, hbuild⟩ := Option.map_eq_some_iff.mp h
  exact ⟨r, List.mem_of_find?_eq_some hfind, (List.find?_eq_some_iff_append.mp hfind).1, hbuild⟩

/-- A word is illegal when no row accepts it (R69). -/
theorem decodeWord_eq_none_iff : decodeWord w = none ↔ ∀ r ∈ opRows, ¬ r.accepts w = true := by
  rw [decodeWord, Option.map_eq_none_iff, List.find?_eq_none]

/-- The row that accepts a word is the one `decodeWord` reads it with. -/
theorem decodeWord_of_accepts (hr : opRows[k]? = some r) (hrw : r.accepts w = true) :
    decodeWord w = some (r.build w) := by
  cases hd : decodeWord w with
  | none => exact absurd hrw (decodeWord_eq_none_iff.mp hd r (List.mem_of_getElem? hr))
  | some i =>
    obtain ⟨q, hq, hqw, rfl⟩ := exists_row_of_decodeWord hd
    obtain ⟨j, hj⟩ := List.getElem?_of_mem hq
    obtain rfl := opRows_accepts_unique hr hj hrw hqw
    obtain rfl : r = q := Option.some.inj (hr.symm.trans hj)
    rfl

/-! ## From an instruction to its word and back -/

/-- The table has a row for every instruction, and that row accepts the instruction's word and reads it back. -/
theorem Laws.EncodingRow.all (i : Instr) : Laws.EncodingRow.Statement i := by
  cases i with
  | cls => exact cls
  | ret => exact ret
  | jp nnn => exact jp nnn
  | call nnn => exact call nnn
  | seVxNn x nn => exact seVxNn x nn
  | sneVxNn x nn => exact sneVxNn x nn
  | seVxVy x y => exact seVxVy x y
  | ldVxNn x nn => exact ldVxNn x nn
  | addVxNn x nn => exact addVxNn x nn
  | ldVxVy x y => exact ldVxVy x y
  | orVxVy x y => exact orVxVy x y
  | andVxVy x y => exact andVxVy x y
  | xorVxVy x y => exact xorVxVy x y
  | addVxVy x y => exact addVxVy x y
  | subVxVy x y => exact subVxVy x y
  | shrVx x y => exact shrVx x y
  | subnVxVy x y => exact subnVxVy x y
  | shlVx x y => exact shlVx x y
  | sneVxVy x y => exact sneVxVy x y
  | ldINnn nnn => exact ldINnn nnn
  | jpV0Nnn nnn => exact jpV0Nnn nnn
  | rndVxNn x nn => exact rndVxNn x nn
  | drw x y n => exact drw x y n
  | skpVx x => exact skpVx x
  | sknpVx x => exact sknpVx x
  | ldVxDt x => exact ldVxDt x
  | ldVxK x => exact ldVxK x
  | ldDtVx x => exact ldDtVx x
  | ldStVx x => exact ldStVx x
  | addIVx x => exact addIVx x
  | ldFVx x => exact ldFVx x
  | ldBVx x => exact ldBVx x
  | ldMemVx x => exact ldMemVx x
  | ldVxMem x => exact ldVxMem x

/-- The word of a well-formed instruction decodes to the instruction (R67, R68). -/
theorem decodeWord_encode (h : i.WellFormed = true) : decodeWord (encode i) = some i := by
  obtain ⟨r, hr, haccepts, hbuild⟩ := Laws.EncodingRow.all i h
  rw [decodeWord_of_accepts hr haccepts, hbuild]

/-- Decoding bytes whose first two hold a legal word, high byte first, reads that word and leaves the rest (R62). -/
theorem decode_bytes_append (h : decodeWord w = some i) (rest : List Byte) :
    decode ([highByte w, lowByte w] ++ rest) = .ok (i, rest) := by
  rw [List.cons_append, List.cons_append, List.nil_append, decode, beWord_bytes, h]

/-! ## From a word to its instruction and back -/

/-- Every word the row accepts is the word of the well-formed instruction that the row reads from it. -/
def OpRow.EncodesBack (r : OpRow) : Prop :=
  ∀ w, r.accepts w = true → (r.build w).WellFormed = true ∧ encode (r.build w) = w

/-- A row without fields. -/
theorem OpRow.encodesBack_of_const {m : Word} (i : Instr) (hwf : i.WellFormed = true) (henc : encode i = m) :
    OpRow.EncodesBack ⟨0xFFFF, m, fun _ => i⟩ := by
  intro w h
  have hw : w &&& 0xFFFF = m := beq_iff_eq.mp h
  exact ⟨hwf, by rw [henc, ← hw]; exact BitVec.and_allOnes⟩

/-- A row of format `nnn`. -/
theorem OpRow.encodesBack_of_nnn (mk : Addr → Instr) (op : BitVec 4) (hwf : ∀ a, (mk a).WellFormed = true)
    (henc : ∀ a, encode (mk a) = encNnn op a) :
    OpRow.EncodesBack ⟨0xF000, encNnn op 0, fun w => mk (fieldNnn w)⟩ :=
  fun _ h => ⟨hwf _, (henc _).trans (encNnn_fields (beq_iff_eq.mp h))⟩

/-- A row of format `xnn`. -/
theorem OpRow.encodesBack_of_xnn (mk : Reg → Byte → Instr) (op : BitVec 4)
    (hwf : ∀ x b, (mk x b).WellFormed = true) (henc : ∀ x b, encode (mk x b) = encXnn op x b) :
    OpRow.EncodesBack ⟨0xF000, encXnn op 0 0, fun w => mk (regX w) (fieldNn w)⟩ :=
  fun _ h => ⟨hwf _ _, (henc _ _).trans (encXnn_fields (beq_iff_eq.mp h))⟩

/-- A row of format `x`, whose low byte is fixed. -/
theorem OpRow.encodesBack_of_x (mk : Reg → Instr) (op : BitVec 4) (nn : Byte)
    (hwf : ∀ x, (mk x).WellFormed = true) (henc : ∀ x, encode (mk x) = encXnn op x nn) :
    OpRow.EncodesBack ⟨0xF0FF, encXnn op 0 nn, fun w => mk (regX w)⟩ :=
  fun _ h => ⟨hwf _, (henc _).trans (encXnn_fieldX (beq_iff_eq.mp h))⟩

/-- A row of format `xy`, whose low nibble is fixed. -/
theorem OpRow.encodesBack_of_xy (mk : Reg → Reg → Instr) (op n : BitVec 4)
    (hwf : ∀ x y, (mk x y).WellFormed = true) (henc : ∀ x y, encode (mk x y) = encXyn op x y n) :
    OpRow.EncodesBack ⟨0xF00F, encXyn op 0 0 n, fun w => mk (regX w) (regY w)⟩ :=
  fun _ h => ⟨hwf _ _, (henc _ _).trans (encXyn_fieldsXy (beq_iff_eq.mp h))⟩

/-- DRW's row, the one of format `xyn`: its row count is a 4-bit field, so it is below 16 (R65). -/
theorem OpRow.encodesBack_drw :
    OpRow.EncodesBack ⟨0xF000, 0xD000, fun w => .drw (regX w) (regY w) (fieldN w).toNat⟩ := by
  intro w h
  refine ⟨decide_eq_true (fieldN w).isLt, ?_⟩
  simp only [encode, BitVec.ofNat_toNat, BitVec.setWidth_eq]
  exact encXyn_fields (beq_iff_eq.mp h)

theorem opRowsA_encodeBack : ∀ r ∈ opRowsA, r.EncodesBack := by
  simp only [opRowsA, List.forall_mem_cons]
  exact ⟨
    OpRow.encodesBack_of_const .cls rfl rfl,
    OpRow.encodesBack_of_const .ret rfl rfl,
    OpRow.encodesBack_of_nnn .jp 0x1 (fun _ => rfl) (fun _ => rfl),
    OpRow.encodesBack_of_nnn .call 0x2 (fun _ => rfl) (fun _ => rfl),
    OpRow.encodesBack_of_xnn .seVxNn 0x3 (fun _ _ => rfl) (fun _ _ => rfl),
    OpRow.encodesBack_of_xnn .sneVxNn 0x4 (fun _ _ => rfl) (fun _ _ => rfl),
    OpRow.encodesBack_of_xy .seVxVy 0x5 0x0 (fun _ _ => rfl) (fun _ _ => rfl),
    OpRow.encodesBack_of_xnn .ldVxNn 0x6 (fun _ _ => rfl) (fun _ _ => rfl),
    OpRow.encodesBack_of_xnn .addVxNn 0x7 (fun _ _ => rfl) (fun _ _ => rfl),
    List.forall_mem_nil _⟩

theorem opRowsB_encodeBack : ∀ r ∈ opRowsB, r.EncodesBack := by
  simp only [opRowsB, List.forall_mem_cons]
  exact ⟨
    OpRow.encodesBack_of_xy .ldVxVy 0x8 0x0 (fun _ _ => rfl) (fun _ _ => rfl),
    OpRow.encodesBack_of_xy .orVxVy 0x8 0x1 (fun _ _ => rfl) (fun _ _ => rfl),
    OpRow.encodesBack_of_xy .andVxVy 0x8 0x2 (fun _ _ => rfl) (fun _ _ => rfl),
    OpRow.encodesBack_of_xy .xorVxVy 0x8 0x3 (fun _ _ => rfl) (fun _ _ => rfl),
    OpRow.encodesBack_of_xy .addVxVy 0x8 0x4 (fun _ _ => rfl) (fun _ _ => rfl),
    OpRow.encodesBack_of_xy .subVxVy 0x8 0x5 (fun _ _ => rfl) (fun _ _ => rfl),
    OpRow.encodesBack_of_xy .shrVx 0x8 0x6 (fun _ _ => rfl) (fun _ _ => rfl),
    OpRow.encodesBack_of_xy .subnVxVy 0x8 0x7 (fun _ _ => rfl) (fun _ _ => rfl),
    OpRow.encodesBack_of_xy .shlVx 0x8 0xE (fun _ _ => rfl) (fun _ _ => rfl),
    List.forall_mem_nil _⟩

theorem opRowsC_encodeBack : ∀ r ∈ opRowsC, r.EncodesBack := by
  simp only [opRowsC, List.forall_mem_cons]
  exact ⟨
    OpRow.encodesBack_of_xy .sneVxVy 0x9 0x0 (fun _ _ => rfl) (fun _ _ => rfl),
    OpRow.encodesBack_of_nnn .ldINnn 0xA (fun _ => rfl) (fun _ => rfl),
    OpRow.encodesBack_of_nnn .jpV0Nnn 0xB (fun _ => rfl) (fun _ => rfl),
    OpRow.encodesBack_of_xnn .rndVxNn 0xC (fun _ _ => rfl) (fun _ _ => rfl),
    OpRow.encodesBack_drw,
    OpRow.encodesBack_of_x .skpVx 0xE 0x9E (fun _ => rfl) (fun _ => rfl),
    OpRow.encodesBack_of_x .sknpVx 0xE 0xA1 (fun _ => rfl) (fun _ => rfl),
    List.forall_mem_nil _⟩

theorem opRowsD_encodeBack : ∀ r ∈ opRowsD, r.EncodesBack := by
  simp only [opRowsD, List.forall_mem_cons]
  exact ⟨
    OpRow.encodesBack_of_x .ldVxDt 0xF 0x07 (fun _ => rfl) (fun _ => rfl),
    OpRow.encodesBack_of_x .ldVxK 0xF 0x0A (fun _ => rfl) (fun _ => rfl),
    OpRow.encodesBack_of_x .ldDtVx 0xF 0x15 (fun _ => rfl) (fun _ => rfl),
    OpRow.encodesBack_of_x .ldStVx 0xF 0x18 (fun _ => rfl) (fun _ => rfl),
    OpRow.encodesBack_of_x .addIVx 0xF 0x1E (fun _ => rfl) (fun _ => rfl),
    OpRow.encodesBack_of_x .ldFVx 0xF 0x29 (fun _ => rfl) (fun _ => rfl),
    OpRow.encodesBack_of_x .ldBVx 0xF 0x33 (fun _ => rfl) (fun _ => rfl),
    OpRow.encodesBack_of_x .ldMemVx 0xF 0x55 (fun _ => rfl) (fun _ => rfl),
    OpRow.encodesBack_of_x .ldVxMem 0xF 0x65 (fun _ => rfl) (fun _ => rfl),
    List.forall_mem_nil _⟩

/-- Every row of R67 reads all the fields its mask leaves free. -/
theorem opRows_encodeBack : ∀ r ∈ opRows, r.EncodesBack := by
  simp only [opRows, List.forall_mem_append]
  exact ⟨⟨⟨opRowsA_encodeBack, opRowsB_encodeBack⟩, opRowsC_encodeBack⟩, opRowsD_encodeBack⟩

/-! ## Mask and match as conditions on the fields -/

theorem fieldOpcode_encXnn (op : BitVec 4) (x : Reg) (nn : Byte) : fieldOpcode (encXnn op x nn) = op := by
  apply BitVec.eq_of_getLsbD_eq
  intro i hi
  simp only [fieldOpcode, BitVec.getLsbD_extractLsb', getLsbD_encXnn]
  interval_cases i <;> simp

/-- Format `xyn` is format `xnn` with the low byte cut in two. -/
theorem fieldOpcode_encXyn (op : BitVec 4) (x y : Reg) (n : BitVec 4) : fieldOpcode (encXyn op x y n) = op :=
  fieldOpcode_encXnn op x (ofReg y ++ n)

/-- A word is its opcode, x and low byte (R63). -/
theorem encXnn_all_fields (w : Word) : encXnn (fieldOpcode w) (regX w) (fieldNn w) = w := by
  apply BitVec.eq_of_getLsbD_eq
  intro i hi
  simp only [getLsbD_encXnn, regX, ofReg_regOf, fieldOpcode, fieldX, fieldNn, BitVec.getLsbD_extractLsb']
  interval_cases i <;> simp

/-- A word is its four nibbles (R63). -/
theorem encXyn_all_fields (w : Word) : encXyn (fieldOpcode w) (regX w) (regY w) (fieldN w) = w := by
  apply BitVec.eq_of_getLsbD_eq
  intro i hi
  simp only [getLsbD_encXyn, regX, regY, ofReg_regOf, fieldOpcode, fieldX, fieldY, fieldN,
    BitVec.getLsbD_extractLsb']
  interval_cases i <;> simp

theorem and_mask_opcode (w : Word) : w &&& 0xF000 = encXnn (fieldOpcode w) 0 0 := by
  rw [← encXnn_mask, encXnn_all_fields]

theorem and_mask_opcode_nn (w : Word) : w &&& 0xF0FF = encXnn (fieldOpcode w) 0 (fieldNn w) := by
  rw [← encXnn_mask_nn, encXnn_all_fields]

theorem and_mask_opcode_n (w : Word) : w &&& 0xF00F = encXyn (fieldOpcode w) 0 0 (fieldN w) := by
  rw [← encXyn_mask_n, encXyn_all_fields]

section
variable {m : Word} {build : Word → Instr}

/-- A row that tests every bit accepts its match alone. -/
theorem OpRow.accepts_word_iff : OpRow.accepts ⟨0xFFFF, m, build⟩ w = true ↔ w = m := by
  rw [OpRow.accepts, beq_iff_eq]
  exact Eq.congr_left BitVec.and_allOnes

/-- A row that tests the opcode accepts the words with the opcode of its match. -/
theorem OpRow.accepts_opcode_iff (hm : m &&& 0xF000 = m) :
    OpRow.accepts ⟨0xF000, m, build⟩ w = true ↔ fieldOpcode w = m.extractLsb' 12 4 := by
  change _ ↔ fieldOpcode w = fieldOpcode m
  simp only [OpRow.accepts, beq_iff_eq]
  constructor
  · intro h
    rw [← h, and_mask_opcode, fieldOpcode_encXnn]
  · intro hop
    rw [← hm, and_mask_opcode, and_mask_opcode, hop]

/-- A row that tests the opcode and the low byte accepts the words with those of its match. -/
theorem OpRow.accepts_opcode_nn_iff (hm : m &&& 0xF0FF = m) :
    OpRow.accepts ⟨0xF0FF, m, build⟩ w = true ↔
      fieldOpcode w = m.extractLsb' 12 4 ∧ fieldNn w = m.extractLsb' 0 8 := by
  change _ ↔ fieldOpcode w = fieldOpcode m ∧ fieldNn w = fieldNn m
  simp only [OpRow.accepts, beq_iff_eq]
  constructor
  · intro h
    rw [← h, and_mask_opcode_nn, fieldOpcode_encXnn, fieldNn_encXnn]
    exact ⟨rfl, rfl⟩
  · rintro ⟨hop, hnn⟩
    rw [← hm, and_mask_opcode_nn, and_mask_opcode_nn, hop, hnn]

/-- A row that tests the opcode and the low nibble accepts the words with those of its match. -/
theorem OpRow.accepts_opcode_n_iff (hm : m &&& 0xF00F = m) :
    OpRow.accepts ⟨0xF00F, m, build⟩ w = true ↔
      fieldOpcode w = m.extractLsb' 12 4 ∧ fieldN w = m.extractLsb' 0 4 := by
  change _ ↔ fieldOpcode w = fieldOpcode m ∧ fieldN w = fieldN m
  simp only [OpRow.accepts, beq_iff_eq]
  constructor
  · intro h
    rw [← h, and_mask_opcode_n, fieldOpcode_encXyn, fieldN_encXyn]
    exact ⟨rfl, rfl⟩
  · rintro ⟨hop, hn⟩
    rw [← hm, and_mask_opcode_n, and_mask_opcode_n, hop, hn]

end

/-! ## What the rows reject, opcode by opcode -/

theorem opRowsA_reject_iff : (∀ r ∈ opRowsA, ¬ r.accepts w = true) ↔
    (w ≠ 0x00E0 ∧ w ≠ 0x00EE) ∧ fieldOpcode w ∉ [0x1, 0x2, 0x3, 0x4, 0x6, 0x7] ∧
    (fieldOpcode w = 0x5 → fieldN w ≠ 0) := by
  simp (disch := decide) only [opRowsA, List.forall_mem_cons, OpRow.accepts_word_iff, OpRow.accepts_opcode_iff,
    OpRow.accepts_opcode_n_iff]
  simp [BitVec.extractLsb']
  tauto

theorem opRowsB_reject_iff : (∀ r ∈ opRowsB, ¬ r.accepts w = true) ↔
    (fieldOpcode w = 0x8 → fieldN w ∉ [0x0, 0x1, 0x2, 0x3, 0x4, 0x5, 0x6, 0x7, 0xE]) := by
  simp (disch := decide) only [opRowsB, List.forall_mem_cons, OpRow.accepts_opcode_n_iff]
  simp [BitVec.extractLsb', imp_and]

theorem opRowsC_reject_iff : (∀ r ∈ opRowsC, ¬ r.accepts w = true) ↔
    (fieldOpcode w = 0x9 → fieldN w ≠ 0) ∧ fieldOpcode w ∉ [0xA, 0xB, 0xC, 0xD] ∧
    (fieldOpcode w = 0xE → fieldNn w ∉ [0x9E, 0xA1]) := by
  simp (disch := decide) only [opRowsC, List.forall_mem_cons, OpRow.accepts_opcode_iff,
    OpRow.accepts_opcode_n_iff, OpRow.accepts_opcode_nn_iff]
  simp [BitVec.extractLsb', imp_and, and_assoc]

theorem opRowsD_reject_iff : (∀ r ∈ opRowsD, ¬ r.accepts w = true) ↔
    (fieldOpcode w = 0xF → fieldNn w ∉ [0x07, 0x0A, 0x15, 0x18, 0x1E, 0x29, 0x33, 0x55, 0x65]) := by
  simp (disch := decide) only [opRowsD, List.forall_mem_cons, OpRow.accepts_opcode_nn_iff]
  simp [BitVec.extractLsb', imp_and]

/-- A word that every row rejects has one of the six opcodes that have not all their words in the table. -/
theorem opcode_mem_of_not_mem_whole {op : BitVec 4} (hA : op ∉ [0x1, 0x2, 0x3, 0x4, 0x6, 0x7])
    (hC : op ∉ [0xA, 0xB, 0xC, 0xD]) : op = 0x0 ∨ op = 0x5 ∨ op = 0x8 ∨ op = 0x9 ∨ op = 0xE ∨ op = 0xF := by
  revert op
  decide

/-- The low nibbles of family 8 outside the table. -/
theorem nibble_not_mem_alu_iff (n : BitVec 4) :
    n ∉ [0x0, 0x1, 0x2, 0x3, 0x4, 0x5, 0x6, 0x7, 0xE] ↔ n ∈ [0x8, 0x9, 0xA, 0xB, 0xC, 0xD, 0xF] := by
  revert n
  decide

/-! ## The statements -/

/-- Settles O2: the instruction's own row reads its word back, by `decodeWord_encode`, and a word is its two bytes. -/
theorem encodedInstructionsDecodeBack : Obligations.EncodedInstructionsDecodeBack :=
  fun _ rest hwf => decode_bytes_append (decodeWord_encode hwf) rest

/-- Settles O3: the row that read the word drops none of its bits, by `opRows_encodeBack`. -/
theorem decodedWordsEncodeBack : Obligations.DecodedWordsEncodeBack := by
  intro w i h
  obtain ⟨r, hr, haccepts, rfl⟩ := exists_row_of_decodeWord h
  exact opRows_encodeBack r hr w haccepts

/-- Settles O4: two rows that accept one word are at one place, by `opRows_accepts_unique`. -/
theorem decodeReturnsTheMatchingRow : Obligations.DecodeReturnsTheMatchingRow := by
  intro w k r hr
  refine ⟨fun hrw => ⟨decodeWord_of_accepts hr hrw, fun j q hq hqw => opRows_accepts_unique hr hq hrw hqw⟩,
    fun hnone => decodeWord_eq_none_iff.mpr fun q hq => ?_⟩
  rw [hnone q hq]
  exact Bool.false_ne_true

/-- Settles O5: `opRowsA_reject_iff` to `opRowsD_reject_iff` say what the rows reject, and there is one case for each
opcode with illegal words. -/
theorem illegalWordsByFamily : Obligations.IllegalWordsByFamily := by
  intro w
  simp only [decodeWord_eq_none_iff, opRows, List.forall_mem_append, opRowsA_reject_iff, opRowsB_reject_iff,
    opRowsC_reject_iff, opRowsD_reject_iff, nibble_not_mem_alu_iff]
  constructor
  · rintro ⟨⟨⟨⟨h0, hA, h5⟩, h8⟩, h9, hC, hE⟩, hF⟩
    rcases opcode_mem_of_not_mem_whole hA hC with hop | hop | hop | hop | hop | hop
    · exact .inl ⟨hop, h0⟩
    · exact .inr (.inl ⟨hop, h5 hop⟩)
    · exact .inr (.inr (.inl ⟨hop, h8 hop⟩))
    · exact .inr (.inr (.inr (.inl ⟨hop, h9 hop⟩)))
    · exact .inr (.inr (.inr (.inr (.inl ⟨hop, hE hop⟩))))
    · exact .inr (.inr (.inr (.inr (.inr ⟨hop, hF hop⟩))))
  · have hword (hne : fieldOpcode w ≠ 0x0) : w ≠ 0x00E0 ∧ w ≠ 0x00EE :=
      ⟨fun h => hne (h ▸ rfl), fun h => hne (h ▸ rfl)⟩
    rintro (⟨hop, h⟩ | ⟨hop, h⟩ | ⟨hop, h⟩ | ⟨hop, h⟩ | ⟨hop, h⟩ | ⟨hop, h⟩) <;>
      simp only [hop] at hword ⊢
    · simpa using h
    all_goals simpa using And.intro (hword (by decide)) h

/-- Settles O1: each of the fourteen words is decoded by evaluation. -/
theorem wordsOfTheMapDecode : Obligations.WordsOfTheMapDecode := by
  unfold Obligations.WordsOfTheMapDecode
  decide

end Sys2Proof
end

section
/-! The cycle controller (spec/40_cycle.md R73 to R84): what each end of a cycle is, which cycles a stopped core refuses,
and what a cycle does to the key state, the wait for a key and the host's schedule. -/

namespace Sys2Proof.Machine

variable {i : Instr} {s t u : State}

/-! ## Frames -/

/-- A change of `keyDown` alone. -/
theorem Frame.setKeyDown {regs : List Reg} {stored : List Nat} {parts : List Part} (h : .keyDown ∈ parts)
    (k : Option Key) (s : State) : Frame regs stored parts s (s.setKeyDown k) :=
  { Frame.refl regs stored parts s with keyDown := fun hn => absurd h hn }

/-- A change of the host's schedule alone. -/
theorem Frame.setSchedule {regs : List Reg} {stored : List Nat} {parts : List Part} (h : .schedule ∈ parts)
    (moves : List HostMove) (round : Nat) (s : State) :
    Frame regs stored parts s (s.setSchedule moves round) :=
  { Frame.refl regs stored parts s with schedule := fun hn => absurd h hn }

/-- A list of stores changes no state element but memory. -/
theorem Frame.pokeAll_addresses (l : List Store) (s : State) :
    Frame [] (l.map Prod.fst) [] s (s.pokeAll l) :=
  Frame.pokeAll (fun _ hc => List.mem_map_of_mem hc) s

/-! ## The end of a cycle (R80, R81) -/

/-- After a fault the cycle ends as the handler left it (R80). -/
theorem endCycle_of_fault (before : State) (hf : u.fault ≠ none) : endCycle before u = u := by
  rw [endCycle, if_pos (Option.isSome_iff_ne_none.mpr hf)]

/-- A completed cycle ends with the key clear of the policy in force (R81). -/
theorem endCycle_of_completed (before : State) (hf : u.fault = none) :
    endCycle before u = if clearsKey before u then u.setKeyDown none else u := by
  rw [endCycle, hf]
  rfl

/-- The policy clears the key after every cycle, or after the one that ended a wait (R81; entry 11). -/
theorem clearsKey_iff (before after : State) :
    clearsKey before after = true ↔ after.params.keyClearPolicy = .everyCycle ∨
      (before.waitingForKey = true ∧ after.waitingForKey = false) := by
  unfold clearsKey
  cases hp : after.params.keyClearPolicy with
  | everyCycle => simp
  | afterWaitOnly =>
    have hc : committed before after = true ↔ before.waitingForKey = true ∧ after.waitingForKey = false := by
      simp [committed]
    simpa using hc

/-- The end of a cycle writes `keyDown` at the most (R80, R81). -/
theorem endCycle_frame (before after : State) : Frame [] [] [.keyDown] after (endCycle before after) := by
  rcases endCycle_cases before after with h | h <;> rw [h]
  · exact Frame.refl ..
  · exact Frame.setKeyDown (List.mem_singleton.mpr rfl) none after

/-! ## A cycle whose fetch is in range (R77 to R79) -/

/-- A word of no row takes the fault IllegalInstruction (R78). -/
theorem cycleBody_of_illegal (hf : s.fetchOk = true) (hd : decodeWord s.fetchWord = none) :
    cycleBody s = .next (s.takeFault .illegalInstruction s.pc (some s.fetchWord) s.fetchWord.toNat) := by
  simp [cycleBody, hf, hd]

/-- A legal word runs its handler and the end of the cycle (R79, R82). -/
theorem cycleBody_of_decoded (hf : s.fetchOk = true) (hd : decodeWord s.fetchWord = some i)
    (hu : exec i s.pcForward = .next u) : cycleBody s = .next (endCycle s.pcForward u) := by
  rw [cycleBody, if_pos hf, hd]
  simp only [hu, finish]

/-- Settles O8: the ready core runs a cycle, whose fetch is in range and whose word is of no row. -/
theorem illegalWordFaults : Obligations.IllegalWordFaults := by
  rintro s _ hready hlo hhi rfl hd
  have hfetch : (s.takeMove.setLoadOpen false).fetchOk = true := (State.fetchOk_iff _).mpr ⟨hlo, hhi⟩
  rw [step_of_ready hready, cycleBody_of_illegal hfetch hd]
  rfl

/-- Settles O6: the ready core runs a cycle, whose fetched word decodes to `i`; its end is `endCycle_of_fault` or
`endCycle_of_completed`. -/
theorem stepRunsTheDecodedInstruction : Obligations.StepRunsTheDecodedInstruction := by
  intro s i hready hlo hhi hd
  have hfetch : (s.takeMove.setLoadOpen false).fetchOk = true := (State.fetchOk_iff _).mpr ⟨hlo, hhi⟩
  obtain ⟨t, ht⟩ := exec_next i (s.takeMove.setLoadOpen false).pcForward
  refine ⟨t, ht, ?_⟩
  rw [step_of_ready hready, cycleBody_of_decoded hfetch hd ht]
  congr 1
  split
  · rename_i hf
    exact endCycle_of_fault _ hf
  · rename_i hf
    rw [endCycle_of_completed _ (not_not.mp hf)]
    exact if_congr (clearsKey_iff _ t) rfl rfl

/-! ## A stopped core (R74, R75) -/

/-- A cycle or a tick needs a live core; no other move of the host does. -/
theorem step_of_cycle_or_tick (h : s.nextMove = .cycle ∨ s.nextMove = .tick) :
    ∃ op, step s = ifLive op s.takeMove := by
  rcases h with h | h
  · exact ⟨cycleBody, by rw [step, nextOperation, h]; rfl⟩
  · exact ⟨fun u => .next u.tickTimers, by rw [step, nextOperation, h]; rfl⟩

theorem ifLive_of_fault (op : State → Result) (hf : s.fault ≠ none) : ifLive op s = .fault .coreFaulted := by
  rw [ifLive, if_pos (Option.isSome_iff_ne_none.mpr hf)]

theorem ifLive_of_halted (op : State → Result) (hf : s.fault = none) (hr : s.running = false) :
    ifLive op s = .fault .halted := by
  simp [ifLive, hf, hr]

/-- Every step of a faulted core but `initialize` keeps the record: a cycle and a tick have no next state (R74). -/
theorem step_keeps_fault (hf : s.fault ≠ none) (h : step s = .next t) :
    t.fault = s.fault ∨ s.nextMove = .initMachine := by
  rcases step_cases h with ⟨_, hl, _⟩ | ⟨_, hl, _⟩ | ⟨hm, _⟩ | ⟨bytes, _, _, _, _, rfl⟩ | ⟨k, _, rfl⟩ |
    ⟨k, _, _, rfl⟩ | ⟨_, rfl⟩ | ⟨_, rfl⟩
  · exact absurd hl.1 hf
  · exact absurd hl.1 hf
  · exact .inr hm
  · exact .inl ((Frame.pokeAll_addresses (romStores bytes) s.takeMove).fault List.not_mem_nil)
  all_goals exact .inl rfl

/-- Settles O9: a cycle and a tick are refused by `ifLive`, and `step_keeps_fault` goes through the other moves. -/
theorem stoppedCoreHasNoCycle : Obligations.StoppedCoreHasNoCycle := by
  refine ⟨fun s hf hm => ?_, fun s t hf h => step_keeps_fault hf h, fun s hf hr hm => ?_⟩
  · obtain ⟨op, hstep⟩ := step_of_cycle_or_tick hm
    rw [hstep]
    exact ifLive_of_fault (s := s.takeMove) op hf
  · obtain ⟨op, hstep⟩ := step_of_cycle_or_tick hm
    rw [hstep]
    exact ifLive_of_halted (s := s.takeMove) op hf hr

/-! ## The fault of a cycle (R80) -/

/-- A fault raised in the handler of a fetched instruction takes PC back to it and records its word (R77, R80):
nothing else differs from the state at the fetch. -/
theorem raiseIn_pcForward (hd : decodeWord s.fetchWord = some i) (f : Failure) :
    s.pcForward.raiseIn i f = { s with fault := some ⟨f.1, s.pc, some s.fetchWord, f.2⟩ } := by
  have hw : encode i = s.fetchWord := (decodedWordsEncodeBack _ _ hd).2
  simp [State.takeFault, State.setPc, hw]

/-- A cycle that faults writes the fault record only, with the address of its instruction and the word it fetched,
none where the fetch itself faulted (R80). -/
theorem cycleBody_faults_precisely (h0 : s.fault = none) (h : cycleBody s = .next t) (hf : t.fault ≠ none) :
    ∃ f : FaultRecord, t = { s with fault := some f } ∧ f.pc = s.pc ∧
      f.word = if s.fetchOk then some s.fetchWord else none := by
  rcases cycleBody_cases s with ⟨hfetch, hc⟩ | ⟨hfetch, _, hc⟩ | ⟨i, u, hfetch, hd, hu, hc⟩ <;>
    obtain rfl := Host.Outcome.next.inj (h.symm.trans hc) <;> rw [hfetch]
  · exact ⟨_, rfl, rfl, rfl⟩
  · exact ⟨_, rfl, rfl, rfl⟩
  · rw [endCycle_fault] at hf
    obtain ⟨f, rfl⟩ := exec_raised (s := s.pcForward) h0 hu hf
    rw [endCycle_of_fault _ hf, raiseIn_pcForward hd]
    exact ⟨_, rfl, rfl, rfl⟩

/-- Settles O10: the step of a ready core is a cycle, and `cycleBody_faults_precisely` says what its fault writes. -/
theorem faultsArePrecise : Obligations.FaultsArePrecise := by
  intro s t hready h hf
  rw [step_of_ready hready] at h
  obtain ⟨f, ht, hpc, hword⟩ := cycleBody_faults_precisely (s := s.takeMove.setLoadOpen false) hready.1.1 h hf
  exact ⟨f, ht, hpc, hword.trans (if_congr (State.fetchOk_iff _) rfl rfl)⟩

/-! ## The key clear of a completed cycle (R81) -/

/-- A cycle that ends without a fault has run a handler to its end (R82). -/
theorem cycleBody_completed (h : cycleBody s = .next t) (hf : t.fault = none) :
    ∃ i u, exec i s.pcForward = .next u ∧ u.fault = none ∧ t = endCycle s.pcForward u := by
  rcases cycleBody_cases s with ⟨_, hc⟩ | ⟨_, _, hc⟩ | ⟨i, u, _, _, hu, hc⟩ <;>
    obtain rfl := Host.Outcome.next.inj (h.symm.trans hc)
  · exact absurd hf (Option.some_ne_none _)
  · exact absurd hf (Option.some_ne_none _)
  · exact ⟨i, u, hu, (endCycle_fault ..).symm.trans hf, rfl⟩

/-- The key state after a completed cycle, for both policies (R81; entry 11). -/
theorem cycleBody_keyDown (h : cycleBody s = .next t) (hf : t.fault = none) :
    t.keyDown = if s.params.keyClearPolicy = .everyCycle ∨ (s.waitingForKey = true ∧ t.waitingForKey = false)
      then none else s.keyDown := by
  obtain ⟨i, u, hu, huf, rfl⟩ := cycleBody_completed h hf
  obtain ⟨hparams, hkey, _⟩ := exec_keeps hu
  have hclears := clearsKey_iff s.pcForward u
  rw [hparams] at hclears
  rw [(endCycle_frame s.pcForward u).waitingForKey (by decide), endCycle_of_completed _ huf,
    apply_ite State.keyDown, hkey]
  exact if_congr hclears rfl rfl

/-- Settles O11: the step of a ready core is a cycle, and `cycleBody_keyDown` is read under each policy. -/
theorem completedCycleClearsKey : Obligations.CompletedCycleClearsKey := by
  intro s t hready h hf
  rw [step_of_ready hready] at h
  have hkey := cycleBody_keyDown h hf
  refine ⟨fun hp => ?_, fun hp => ?_⟩
  · exact hkey.trans (if_pos (.inl hp))
  · refine hkey.trans (if_congr (or_iff_right ?_) rfl rfl)
    show s.params.keyClearPolicy ≠ .everyCycle
    rw [hp]
    decide

/-! ## A wait without a report (R84) -/

/-- The waiting phase of FX0A only rewinds PC (spec/45_keys_timers.md R124). -/
theorem exec_ldVxK_of_unsatisfied (x : Reg) (hw : s.waitingForKey = true) (hk : s.keyWaitSatisfied = false) :
    exec (.ldVxK x) s = .next s.pcRewind := by
  show execLdVxK x s = _
  rw [execLdVxK, if_pos hw, if_neg (by simp [hk])]

/-- No handler ends a wait that has had no report, or satisfies it: FX0A only rewinds PC, and no other instruction
writes the wait bits (R84). -/
theorem exec_keeps_wait (hw : s.waitingForKey = true) (hk : s.keyWaitSatisfied = false)
    (h : exec i s = .next t) : t.waitingForKey = true ∧ t.keyWaitSatisfied = false := by
  by_cases hi : ∃ x, i = .ldVxK x
  · obtain ⟨x, rfl⟩ := hi
    obtain rfl := Host.Outcome.next.inj ((exec_ldVxK_of_unsatisfied x hw hk).symm.trans h)
    exact ⟨hw, hk⟩
  · constructor
    · exact hw ▸ Decidable.of_not_not fun hne => hi (exec_waitingForKey_writer h hne)
    · exact hk ▸ Decidable.of_not_not fun hne => hi
        (keyWaitSatisfied_mem_destParts (mem_destParts_of_ne (fun _ => rfl) Frame.keyWaitSatisfied h hne))

/-- No cycle ends a wait that has had no report, or satisfies it (R84). -/
theorem cycleBody_keeps_wait (hw : s.waitingForKey = true) (hk : s.keyWaitSatisfied = false)
    (h : cycleBody s = .next t) : t.waitingForKey = true ∧ t.keyWaitSatisfied = false := by
  rcases cycleBody_cases s with ⟨_, hc⟩ | ⟨_, _, hc⟩ | ⟨i, u, _, _, hu, hc⟩ <;>
    obtain rfl := Host.Outcome.next.inj (h.symm.trans hc)
  · exact ⟨hw, hk⟩
  · exact ⟨hw, hk⟩
  · have hend := endCycle_frame s.pcForward u
    rw [hend.waitingForKey (by decide), hend.keyWaitSatisfied (by decide)]
    exact exec_keeps_wait (s := s.pcForward) hw hk hu

/-- Settles O36, by cases on the host's move: a cycle keeps the wait by `cycleBody_keeps_wait`, a report keeps it and
satisfies it, `initialize` clears both bits, and no other move writes them. -/
theorem onlyAKeyReportEndsAWait : Obligations.OnlyAKeyReportEndsAWait := by
  intro s t hw hk h
  have of_kept (h : t.waitingForKey = true ∧ t.keyWaitSatisfied = false) :
      (t.waitingForKey = true ∨ s.nextMove = .initMachine) ∧
        (t.keyWaitSatisfied = true → ∃ k, s.nextMove = .keyReport k) :=
    ⟨.inl h.1, fun hsat => absurd (h.2.symm.trans hsat) Bool.false_ne_true⟩
  rcases step_cases h with ⟨_, _, hc⟩ | ⟨_, _, rfl⟩ | ⟨hm, rfl⟩ | ⟨bytes, _, _, _, _, rfl⟩ | ⟨k, _, rfl⟩ |
    ⟨k, hm, _, rfl⟩ | ⟨_, rfl⟩ | ⟨_, rfl⟩
  · exact of_kept (cycleBody_keeps_wait (s := s.takeMove.setLoadOpen false) hw hk hc)
  · exact of_kept ⟨hw, hk⟩
  · exact ⟨.inr hm, fun hsat => absurd hsat Bool.false_ne_true⟩
  · have hstores := Frame.pokeAll_addresses (romStores bytes) s.takeMove
    exact of_kept ⟨(hstores.waitingForKey List.not_mem_nil).trans hw,
      (hstores.keyWaitSatisfied List.not_mem_nil).trans hk⟩
  · exact of_kept ⟨hw, hk⟩
  · exact ⟨.inl hw, fun _ => ⟨k, hm⟩⟩
  · exact of_kept ⟨hw, hk⟩
  · exact of_kept ⟨hw, hk⟩

/-! ## The host's schedule (R73; spec/60_exceptions.md R135, R141) -/

/-- A pending move is the next one, and leaves the list. -/
theorem State.schedule_of_cons {m : HostMove} {rest : List HostMove} (h : s.hostMoves = m :: rest) :
    s.nextMove = m ∧ s.movesAfter = rest ∧ s.roundAfter = s.rounds := by
  simp [State.nextMove, State.movesAfter, State.roundAfter, h]

/-- Where none is pending, the next round opens, and its first move is the next one. -/
theorem State.schedule_of_nil (h : s.hostMoves = []) :
    s.nextMove :: s.movesAfter = roundMoves Config.hostGap s.rounds ∧ s.roundAfter = s.rounds + 1 := by
  simp only [State.nextMove, State.movesAfter, State.roundAfter, roundMoves, h]
  cases Config.hostGap s.rounds <;> simp

/-- A cycle keeps the host's schedule (entry 1). -/
theorem cycleBody_keeps_schedule (h : cycleBody s = .next t) :
    t.hostMoves = s.hostMoves ∧ t.rounds = s.rounds := by
  rcases cycleBody_cases s with ⟨_, hc⟩ | ⟨_, _, hc⟩ | ⟨i, u, _, _, hu, hc⟩ <;>
    obtain rfl := Host.Outcome.next.inj (h.symm.trans hc)
  · exact ⟨rfl, rfl⟩
  · exact ⟨rfl, rfl⟩
  · obtain ⟨hmoves, hrounds⟩ := (endCycle_frame s.pcForward u).schedule (by decide)
    rw [hmoves, hrounds]
    exact exec_keeps_schedule (s := s.pcForward) hu

/-- A step changes the host's schedule by taking its move, and not otherwise (R73; entry 1). -/
theorem step_schedule (h : step s = .next t) :
    t.hostMoves = s.takeMove.hostMoves ∧ t.rounds = s.takeMove.rounds := by
  rcases step_cases h with ⟨_, _, hc⟩ | ⟨_, _, rfl⟩ | ⟨_, rfl⟩ | ⟨bytes, _, _, _, _, rfl⟩ | ⟨k, _, rfl⟩ |
    ⟨k, _, _, rfl⟩ | ⟨_, rfl⟩ | ⟨_, rfl⟩
  case inl => exact cycleBody_keeps_schedule (s := s.takeMove.setLoadOpen false) hc
  case inr.inr.inr.inl => exact (Frame.pokeAll_addresses (romStores bytes) s.takeMove).schedule List.not_mem_nil
  all_goals exact ⟨rfl, rfl⟩

/-- Settles O51: the two shapes of the schedule by their lemmas, the frame of taking a move, and `step_schedule`. -/
theorem hostMovesAreTakenInOrder : Obligations.HostMovesAreTakenInOrder :=
  ⟨fun _ _ _ h => State.schedule_of_cons h, fun _ h => State.schedule_of_nil h,
    fun s => Frame.setSchedule (List.mem_singleton.mpr rfl) s.movesAfter s.roundAfter s, fun _ _ h => step_schedule h⟩

end Sys2Proof.Machine
end

section
/-! Control transfer (spec/41_flow.md R87 to R95): what each handler's end is, from what a push, a pop, a skip and a jump
do to the call stack and PC. -/

namespace Sys2Proof.Machine

variable {i : Instr} {s : State} {check : Option Failure} {run : State → State}

/-! ## The ends of a handler -/

/-- A well-formed instruction whose word is of the row with this mask and match loses no bit in decoding (R67, R68). -/
theorem Encodes.of_mask {mask mtch : Word} (hwf : i.WellFormed = true) (hm : encode i &&& mask = mtch) :
    Encodes i mask mtch :=
  ⟨hm, decodeWord_encode hwf⟩

/-- A guarded handler whose check fails raises that failure (spec/20_memory.md R54). -/
theorem Raises.of_guarded {code : FaultCode} {info : Nat} (h : exec i s = .next (s.guarded i check run))
    (hc : check = some (code, info)) : Raises i s code info := by
  rw [hc] at h
  exact h

/-- A guarded handler whose check passes completes with what its run leaves (spec/20_memory.md R54). -/
theorem Completes.of_guarded {regs : List Reg} {stored : List Nat} {parts : List Part} {post : State → Prop}
    (h : exec i s = .next (s.guarded i check run)) (hc : check = none) (hpost : post (run s))
    (hframe : Frame regs stored parts s (run s)) : Completes i s regs stored parts post := by
  rw [hc] at h
  exact ⟨run s, h, hpost, hframe⟩

/-- A handler that only sets PC completes with that PC. -/
theorem Completes.of_setPc {a : Word} {post : State → Prop} (h : exec i s = .next (s.setPc a))
    (hpost : post (s.setPc a)) : Completes i s [] [] [.pc] post :=
  ⟨s.setPc a, h, hpost, Frame.setPc (List.mem_singleton.mpr rfl) a s⟩

/-- A handler that only skips completes with PC moved 2 further exactly when its condition holds (R87). -/
theorem Completes.of_skipIf {taken : Bool} {p : Prop} [Decidable p] (h : exec i s = .next (s.skipIf taken))
    (hp : taken = true ↔ p) : Completes i s [] [] [.pc] fun t => t.pc = if p then s.pc + 2 else s.pc := by
  refine ⟨s.skipIf taken, h, ?_, Frame.skipIf (List.mem_singleton.mpr rfl) taken s⟩
  cases taken with
  | true => exact (if_pos (hp.mp rfl)).symm
  | false => exact (if_neg fun hcond => Bool.false_ne_true (hp.mpr hcond)).symm

/-! ## The call stack (spec/10_state.md R29) and the jump target (R89) -/

/-- The entries after a push onto a stack that is not full: the new one at the old depth, every other as before. -/
theorem State.stackAt_push (a : Word) (h : s.sp.val < 16) (k : Nat) :
    (s.push a).stackAt k = if k = s.sp.val then a else s.stackAt k := by
  rw [State.push_of_lt s a h]
  by_cases hk : k = s.sp.val
  · simp [State.stackAt, hk, h]
  · simp [State.stackAt, hk, Ne.symm hk]

/-- The entries depend on the stack alone. -/
theorem State.stackAt_congr {t : State} (h : t.stack = s.stack) (k : Nat) : t.stackAt k = s.stackAt k := by
  rw [State.stackAt, State.stackAt, h]

/-- A 12-bit address keeps its value as a PC. -/
theorem zextAddr_toNat (nnn : Addr) : (zextAddr nnn).toNat = nnn.toNat :=
  BitVec.toNat_setWidth_of_le (by decide)

/-! ## The statements -/

/-- Settles O12: the check fails at depth 0, and at any other depth the run is a pop. -/
theorem retPopsOrUnderflows : Obligations.RetPopsOrUnderflows := by
  refine ⟨.of_mask rfl rfl, fun s => ?_⟩
  split
  · next hsp => exact .of_guarded rfl (if_pos hsp)
  · next hsp =>
    refine .of_guarded rfl (if_neg hsp) ?_ (Frame.popToPc (by decide) (by decide) s)
    rw [State.popToPc_of_pos s (Nat.pos_of_ne_zero hsp)]
    exact ⟨rfl, rfl, rfl⟩

/-- Settles O13: the check fails at depth 16, and at a lesser depth the run is a push of PC and a jump. -/
theorem callPushesOrOverflows : Obligations.CallPushesOrOverflows := by
  refine fun nnn s => ⟨.of_mask rfl (encNnn_mask ..), ?_⟩
  split
  · next hsp => exact .of_guarded rfl (if_pos hsp)
  · next hsp =>
    have hlt : s.sp.val < 16 := by omega
    have hentry := State.stackAt_push s.pc hlt
    refine .of_guarded rfl (if_neg hsp) ⟨?_, ?_, fun k hk => ?_, zextAddr_toNat nnn⟩
      ((Frame.push (by decide) s.pc s).trans (Frame.setPc (by decide) _ _))
    · rw [State.push_of_lt s s.pc hlt]
      rfl
    · exact (hentry _).trans (if_pos rfl)
    · exact (hentry k).trans (if_neg hk)

/-- Settles O14: the call leaves its return address at the old depth (`callPushesOrOverflows`), one below the depth it
leaves, and there the return finds it (`retPopsOrUnderflows`). -/
theorem returnUndoesCall : Obligations.ReturnUndoesCall := by
  intro nnn s t u hlt hcall hsp hstack
  obtain ⟨_, hcompletes⟩ := callPushesOrOverflows nnn s
  rw [if_neg (by omega)] at hcompletes
  obtain ⟨t', ht', ⟨hdepth, hentry, _, _⟩, _⟩ := hcompletes
  obtain rfl := Host.Outcome.next.inj (hcall.symm.trans ht')
  have hreturn := retPopsOrUnderflows.2 u
  rw [hsp, hdepth, if_neg (Nat.succ_ne_zero _)] at hreturn
  obtain ⟨w, hw, ⟨hwsp, hwpc, _⟩, _⟩ := hreturn
  exact ⟨w, hw, hwpc.trans ((State.stackAt_congr hstack _).trans hentry), Fin.ext hwsp⟩

/-- Settles O15: both handlers set PC, and the sum of the second fits 16 bits. -/
theorem jumpsSetPc : Obligations.JumpsSetPc := by
  intro nnn s
  have hsum : (s.V 0).toNat + nnn.toNat < 2 ^ 16 := by omega
  exact ⟨⟨.of_mask rfl (encNnn_mask ..), .of_setPc rfl (zextAddr_toNat nnn)⟩,
    ⟨.of_mask rfl (encNnn_mask ..), .of_setPc rfl (Nat.mod_eq_of_lt hsum)⟩⟩

/-- Settles O16: the four handlers are skips, each taken when its comparison of bytes holds. -/
theorem skipsFollowTheirComparison : Obligations.SkipsFollowTheirComparison :=
  fun _ _ _ _ =>
    ⟨⟨.of_mask rfl (encXnn_mask ..), .of_skipIf rfl beq_iff_eq⟩,
      ⟨.of_mask rfl (encXnn_mask ..), .of_skipIf rfl bne_iff_ne⟩,
      ⟨.of_mask rfl (encXyn_mask_n ..), .of_skipIf rfl beq_iff_eq⟩,
      ⟨.of_mask rfl (encXyn_mask_n ..), .of_skipIf rfl bne_iff_ne⟩⟩

end Sys2Proof.Machine
end

section
/-! Register instructions (spec/42_alu.md R96 to R107): each handler writes one register, or one register and VF in an
order, so its end follows from what it writes and from the plain form of the value written. -/

namespace Sys2Proof.Machine

variable {i : Instr} {s : State} {x : Reg} {v : Byte} {f : Bool} {order : Config.SubWriteOrder}

/-! ## The values written -/

theorem toNat_addByte (a b : Byte) : (addByte a b).toNat = (a.toNat + b.toNat) % 256 := BitVec.toNat_ofNat ..

theorem toNat_subByte (a b : Byte) : (subByte a b).toNat = (256 + a.toNat - b.toNat) % 256 := BitVec.toNat_ofNat ..

theorem toNat_shlByte (a : Byte) : (shlByte a).toNat = a.toNat * 2 % 256 := by
  rw [Nat.mul_comm]
  exact BitVec.toNat_ofNat ..

/-- A halved byte needs no truncation. -/
theorem toNat_shrByte (a : Byte) : (shrByte a).toNat = a.toNat / 2 :=
  (BitVec.toNat_ofNat ..).trans (Nat.mod_eq_of_lt (by omega))

theorem flagByte_decide (p : Prop) [Decidable p] : flagByte (decide p) = if p then 1 else 0 := by
  simp [flagByte]

/-- The bits of a register after a masked byte was written to it (R100, R107). -/
theorem State.getLsbD_V_setV_and (s : State) (x : Reg) (a mask : Byte) (k : Nat) :
    ((s.setV x (a &&& mask)).V x).getLsbD k = (a.getLsbD k && mask.getLsbD k) := by
  rw [State.V_setV_same, BitVec.getLsbD_and]

/-- The destination ends as the value, unless it is VF and the flag is written last (spec/10_state.md R22). -/
theorem State.V_writeWithFlag_dest (h : x ≠ vf ∨ order = .flagThenValue) :
    (s.writeWithFlag order x v f).V x = v := by
  rw [State.V_writeWithFlag]
  cases order with
  | flagThenValue => exact if_pos rfl
  | valueThenFlag =>
    have hx : x ≠ vf := h.resolve_right (by decide)
    exact (if_neg hx).trans (if_pos rfl)

/-- VF ends as the flag, unless it is the destination and the value is written last (spec/10_state.md R22). -/
theorem State.V_writeWithFlag_vf (h : x ≠ vf ∨ order = .valueThenFlag) :
    (s.writeWithFlag order x v f).V vf = flagByte f := by
  rw [State.V_writeWithFlag]
  cases order with
  | flagThenValue =>
    have hx : x ≠ vf := h.resolve_right (by decide)
    exact (if_neg hx.symm).trans (if_pos rfl)
  | valueThenFlag => exact if_pos rfl

/-! ## The ends of a handler -/

/-- A handler that only writes Vx completes with that byte in Vx. -/
theorem Completes.of_setV {post : State → Prop} (h : exec i s = .next (s.setV x v)) (hpost : post (s.setV x v)) :
    Completes i s [x] [] [] post :=
  ⟨s.setV x v, h, hpost, Frame.setV (List.mem_singleton.mpr rfl) v s⟩

/-- A handler that writes a value and a flag completes with both, in the order given. -/
theorem Completes.of_writeWithFlag {post : State → Prop} (h : exec i s = .next (s.writeWithFlag order x v f))
    (hpost : post (s.writeWithFlag order x v f)) : Completes i s [x, vf] [] [] post :=
  ⟨s.writeWithFlag order x v f, h, hpost, Frame.writeWithFlag order x v f s⟩

/-- A handler that subtracts b from a completes with the difference and the strict comparison, in the order of the
parameter (R103, R104). -/
theorem Completes.of_subtract {a b : Byte}
    (h : exec i s = .next (s.writeWithFlag s.params.subWriteOrder x (subByte a b) (subFlag a b))) :
    Completes i s [x, vf] [] [] fun t =>
      (x ≠ vf ∨ s.params.subWriteOrder = .flagThenValue → (t.V x).toNat = (256 + a.toNat - b.toNat) % 256) ∧
      (x ≠ vf ∨ s.params.subWriteOrder = .valueThenFlag → t.V vf = if b.toNat < a.toNat then 1 else 0) := by
  refine .of_writeWithFlag h ⟨fun hx => ?_, fun hx => ?_⟩
  · rw [State.V_writeWithFlag_dest hx, toNat_subByte]
  · rw [State.V_writeWithFlag_vf hx, subFlag, flagByte_decide]

/-! ## The statements -/

/-- Settles O21: both handlers are one subtraction (`Completes.of_subtract`), SUBN with the operands exchanged. -/
theorem subtractsSetNoBorrow : Obligations.SubtractsSetNoBorrow :=
  fun _ _ _ =>
    ⟨⟨.of_mask rfl (encXyn_mask_n ..), .of_subtract rfl⟩, ⟨.of_mask rfl (encXyn_mask_n ..), .of_subtract rfl⟩⟩

/-- Settles O17: both handlers are one register write. -/
theorem loadsWriteVx : Obligations.LoadsWriteVx :=
  fun x _ _ s =>
    ⟨⟨.of_mask rfl (encXnn_mask ..), .of_setV rfl (s.V_setV_same x _)⟩,
      ⟨.of_mask rfl (encXyn_mask_n ..), .of_setV rfl (s.V_setV_same x _)⟩⟩

/-- Settles O18: the handler is one register write, of the truncated sum. -/
theorem addImmediateWraps : Obligations.AddImmediateWraps := by
  refine fun x nn s => ⟨.of_mask rfl (encXnn_mask ..), .of_setV rfl ?_⟩
  rw [State.V_setV_same, toNat_addByte]

/-- Settles O19: each handler is one register write, and each bit of the byte written is the or, and or exclusive or of
the operands' bits. -/
theorem logicCombinesBits : Obligations.LogicCombinesBits := by
  refine fun x y s => ⟨⟨.of_mask rfl (encXyn_mask_n ..), .of_setV rfl fun k => ?_⟩,
    ⟨.of_mask rfl (encXyn_mask_n ..), .of_setV rfl (s.getLsbD_V_setV_and x _ _)⟩,
    ⟨.of_mask rfl (encXyn_mask_n ..), .of_setV rfl fun k => ?_⟩⟩
  · rw [State.V_setV_same, BitVec.getLsbD_or]
  · rw [State.V_setV_same, BitVec.getLsbD_xor]

/-- Settles O20: the flag is written after the value, so VF ends as the carry whatever x is, and Vx as the sum when it
is not VF. -/
theorem addSetsCarry : Obligations.AddSetsCarry := by
  refine fun x y s => ⟨.of_mask rfl (encXyn_mask_n ..), .of_writeWithFlag rfl ⟨fun hx => ?_, ?_⟩⟩
  · rw [State.V_writeWithFlag_dest (.inl hx), toNat_addByte]
  · rw [State.V_writeWithFlag_vf (.inr rfl), addCarry, flagByte_decide]

/-- Settles O22: both handlers are one register write that does not look at y. -/
theorem shiftsIgnoreYAndFlag : Obligations.ShiftsIgnoreYAndFlag := by
  refine fun x y s => ⟨⟨.of_mask rfl (encXyn_mask_n ..), .of_setV rfl ?_⟩,
    ⟨.of_mask rfl (encXyn_mask_n ..), .of_setV rfl ?_⟩⟩
  · rw [State.V_setV_same, toNat_shrByte]
  · rw [State.V_setV_same, toNat_shlByte]

/-- Settles O23: the handler takes a draw and writes its bits under the mask; a bit outside the mask is 0 by the
same equation. -/
theorem randomByteIsMasked : Obligations.RandomByteIsMasked := by
  intro x nn s
  have hbit := s.nextDraw.getLsbD_V_setV_and x (Config.randomByte s.draws) nn
  refine ⟨.of_mask rfl (encXnn_mask ..), _, rfl, ⟨hbit, fun k hk => ?_, rfl⟩,
    (Frame.nextDraw (List.mem_singleton.mpr rfl) s).trans (Frame.setV (List.mem_singleton.mpr rfl) _ _)⟩
  rw [hbit, hk, Bool.and_false]

end Sys2Proof.Machine
end

section
/-! Index and memory instructions (spec/43_index_memory.md R109 to R114): a handler that writes I, one that stores a
block of bytes from I up behind the check of its addresses, and one that loads a block. -/

namespace Sys2Proof.Machine

variable {i : Instr} {s : State}

/-! ## The values written -/

/-- The glyph of a hex digit lies in the font, so its address needs no truncation (R111). -/
theorem toNat_glyphAddr {v : Nat} (hv : v ≤ 15) : (glyphAddr v).toNat = 5 * v := by
  refine (BitVec.toNat_ofNat ..).trans ?_
  unfold Config.fontBase Config.glyphBytes
  omega

/-! ## A block of bytes from I up -/

/-- The addresses from I up are distinct. -/
theorem State.nodup_effAddrs (s : State) (n : Nat) : (s.effAddrs n).Nodup :=
  List.nodup_range.map fun _ _ h => Nat.add_left_cancel h

/-- Bytes stored from I up are each read back at their address (spec/20_memory.md R49). -/
theorem State.peek_storeBlock (s : State) (bytes : List Byte) {k : Nat} (hk : k < bytes.length) :
    (s.pokeAll ((s.effAddrs bytes.length).zip bytes)).peek (s.effAddr k) = bytes[k] := by
  have hlen : (s.effAddrs bytes.length).length = bytes.length := by simp [State.effAddrs]
  have hmem : (s.effAddr k, bytes[k]) ∈ (s.effAddrs bytes.length).zip bytes :=
    List.mem_iff_getElem.mpr ⟨k, by simp [hlen, hk], by simp [State.effAddrs]⟩
  refine State.peek_pokeAll_of_mem s _ ?_ hmem
  rw [List.map_fst_zip hlen.le]
  exact s.nodup_effAddrs _

/-- A digit stored by LD B is read back as the number it is, since it fits a byte (R112). -/
theorem State.toNat_peek_storeDigits (s : State) (b : Byte) {k d : Nat} (hk : k < 3)
    (hd : (bcdDigits b)[k]'hk = BitVec.ofNat 8 d) (hlt : d < 2 ^ 8) :
    ((s.pokeAll ((s.effAddrs 3).zip (bcdDigits b))).peek (s.effAddr k)).toNat = d :=
  (congrArg BitVec.toNat ((s.peek_storeBlock (bcdDigits b) hk).trans hd)).trans (Nat.mod_eq_of_lt hlt)

/-! ## The ends of a handler -/

/-- A handler that only sets I completes with that I. -/
theorem Completes.of_setI {a : Word} {post : State → Prop} (h : exec i s = .next (s.setI a))
    (hpost : post (s.setI a)) : Completes i s [] [] [.idx] post :=
  ⟨s.setI a, h, hpost, Frame.setI (List.mem_singleton.mpr rfl) a s⟩

/-- A handler that stores to I, …, I+m behind the check of those addresses reports the first address that fails, or
completes with what the stores leave (spec/20_memory.md R52, R54). -/
theorem stores_block_or_raises {m : Nat} {l : List Store} {post : State → Prop}
    (h : exec i s = .next (s.guarded i (writeChecks (s.effAddrs (m + 1))) (State.pokeAll l)))
    (hl : ∀ c ∈ l, c.1 ∈ s.effAddrs (m + 1)) (hpost : post (s.pokeAll l)) :
    if 0x1000 ≤ s.idx.toNat then Raises i s .memoryOutOfRange s.idx.toNat
    else if s.idx.toNat < 0x200 then Raises i s .protectedWrite s.idx.toNat
    else if 0x1000 ≤ s.idx.toNat + m then Raises i s .memoryOutOfRange 0x1000
    else Completes i s [] (s.effAddrs (m + 1)) [] post := by
  have hcheck := s.writeChecks_block (Nat.succ_pos m)
  split
  · next habove => exact .of_guarded h (hcheck.trans (if_pos habove))
  · next habove =>
    rw [if_neg habove] at hcheck
    split
    · next hbelow => exact .of_guarded h (hcheck.trans (if_pos hbelow))
    · next hbelow =>
      rw [if_neg hbelow] at hcheck
      split
      · next hend => exact .of_guarded h (hcheck.trans (if_pos (Nat.lt_succ_of_le hend)))
      · next hend =>
        exact .of_guarded h (hcheck.trans (if_neg fun hlt => hend (Nat.le_of_lt_succ hlt))) hpost
          (Frame.pokeAll hl s)

/-- A handler that loads registers behind the check of I, …, I+m reports the first of these addresses that does not
exist, or completes with what the loads leave (spec/20_memory.md R51, R54). -/
theorem loads_block_or_raises {m : Nat} {ks : List Reg} {post : State → Prop}
    (h : exec i s = .next (s.guarded i (readChecks (s.effAddrs (m + 1))) (fun t => ks.foldl State.loadReg t)))
    (hpost : post (ks.foldl State.loadReg s)) :
    if 0x1000 ≤ s.idx.toNat then Raises i s .memoryOutOfRange s.idx.toNat
    else if 0x1000 ≤ s.idx.toNat + m then Raises i s .memoryOutOfRange 0x1000
    else Completes i s ks [] [] post := by
  have hcheck := s.readChecks_block (m + 1)
  split
  · next habove => exact .of_guarded h (hcheck.trans (if_pos ⟨Nat.succ_pos m, habove⟩))
  · next habove =>
    rw [if_neg fun hc => habove hc.2] at hcheck
    split
    · next hend => exact .of_guarded h (hcheck.trans (if_pos ⟨Nat.succ_pos m, Nat.lt_succ_of_le hend⟩))
    · next hend =>
      exact .of_guarded h (hcheck.trans (if_neg fun hc => hend (Nat.le_of_lt_succ hc.2))) hpost
        (Frame.loadRegs (fun _ hk => hk) s)

/-! ## The statements -/

/-- Settles O26: the handler stores a block of three bytes, each read back as its digit by
`State.toNat_peek_storeDigits`. -/
theorem bcdStoresDigitsOrFaults : Obligations.BcdStoresDigitsOrFaults := by
  refine fun x s => ⟨.of_mask rfl (encXnn_mask_nn ..),
    stores_block_or_raises (m := 2) rfl (fun _ hc => (List.of_mem_zip hc).1) ⟨?_, ?_, ?_⟩⟩
  · exact s.toNat_peek_storeDigits (s.V x) (k := 0) (by decide) rfl (by omega)
  · exact s.toNat_peek_storeDigits (s.V x) (k := 1) (by decide) rfl (by omega)
  · exact s.toNat_peek_storeDigits (s.V x) (k := 2) (by decide) rfl (by omega)

/-- Settles O27: the handler stores a block of x + 1 bytes, and each register is at its address. -/
theorem registersAreStoredOrFault : Obligations.RegistersAreStoredOrFault :=
  fun _ s =>
    ⟨.of_mask rfl (encXnn_mask_nn ..),
      stores_block_or_raises rfl (fun _ hc => State.mem_storeRegs hc) fun _ hk => s.peek_storeRegs hk⟩

/-- Settles O28: the handler loads a block of x + 1 bytes into the registers up to Vx, and into no other. -/
theorem registersAreLoadedOrFault : Obligations.RegistersAreLoadedOrFault := by
  refine fun x s => ⟨.of_mask rfl (encXnn_mask_nn ..), loads_block_or_raises rfl ⟨fun k hk => ?_, fun k hk => ?_⟩⟩
  · rw [State.V_foldl_loadReg, if_pos (mem_regsUpTo.mpr hk), State.effAddr]
  · rw [State.V_foldl_loadReg, if_neg fun hmem => hk.not_ge (mem_regsUpTo.mp hmem)]

/-- Settles O24: both handlers set I, the second to the truncated sum. -/
theorem indexIsLoadedAndAdded : Obligations.IndexIsLoadedAndAdded :=
  fun _ nnn _ =>
    ⟨⟨.of_mask rfl (encNnn_mask ..), .of_setI rfl (zextAddr_toNat nnn)⟩,
      ⟨.of_mask rfl (encXnn_mask_nn ..), .of_setI rfl (BitVec.toNat_ofNat ..)⟩⟩

/-- Settles O25: the check fails above 15, and at a digit the run sets I to its glyph. -/
theorem fontAddressOrFault : Obligations.FontAddressOrFault := by
  refine fun x s => ⟨.of_mask rfl (encXnn_mask_nn ..), ?_⟩
  split
  · next hdigit => exact .of_guarded rfl (if_pos hdigit)
  · next hdigit =>
    exact .of_guarded rfl (if_neg hdigit) (toNat_glyphAddr (Nat.le_of_not_lt hdigit))
      (Frame.setI (List.mem_singleton.mpr rfl) _ s)

end Sys2Proof.Machine
end

section
/-! Display instructions (spec/44_display.md R115 to R118): CLS is one store of zero to each framebuffer byte; DRW flips
each pixel it plots once, so a second draw of the same pixels flips them back. -/

namespace Sys2Proof.Machine

variable {s u : State} {x y x' y' : Reg} {n : Nat} {p : Nat × Nat}

/-! ## What DRW leaves -/

/-- What DRW leaves when every address of its sprite exists (R117). -/
def State.draw (x y : Reg) (n : Nat) (s : State) : State :=
  ((s.setV vf 0).drawRows (s.startX x) (s.startY y) n).setRedraw true

/-- The pixels DRW plots (R117). -/
def State.drawPoints (x y : Reg) (n : Nat) (s : State) : List (Nat × Nat) :=
  drawnPoints (s.startX x) (s.startY y) (s.setV vf 0) n

/-- A block of addresses passes its check when each of them exists (spec/20_memory.md R51). -/
theorem State.readChecks_effAddrs_none : readChecks (s.effAddrs n) = none ↔ ∀ k < n, s.effAddr k < 0x1000 := by
  simp [readChecks_none, State.effAddrs, Config.memSize]

theorem exec_drw (h : ∀ k < n, s.effAddr k < 0x1000) : exec (.drw x y n) s = .next (s.draw x y n) := by
  have hrun : exec (.drw x y n) s =
      .next (s.guarded (.drw x y n) (readChecks (s.effAddrs n)) (State.draw x y n)) := rfl
  rw [hrun, State.readChecks_effAddrs_none.mpr h, State.guarded_none]

theorem State.draw_eq_plotAll :
    s.draw x y n = ((s.setV vf 0).plotAll (s.drawPoints x y n)).setRedraw true :=
  congrArg (State.setRedraw true) (State.drawRows_eq_plotAll ..)

theorem State.drawPoints_range (h : p ∈ s.drawPoints x y n) : p.1 < 64 ∧ p.2 < 32 := drawnPoints_range h

theorem State.nodup_drawPoints (hn : n < 16) : (s.drawPoints x y n).Nodup := nodup_drawnPoints _ _ _ (by omega)

/-- Every plotted pixel is the position of a set bit of some row, as the row is after the draw of those before it. -/
theorem State.mem_drawPoints :
    p ∈ s.drawPoints x y n ↔ ∃ r < n, ∃ b < 8, spriteBit ((s.draw x y r).peek (s.effAddr r)) b = true ∧
      spritePos s.params.drawEdge (s.startX x) (s.startY y) r b = some p :=
  mem_drawnPoints

/-- The rows before row r are drawn by the DRW of r rows. -/
theorem State.mem_drawPoints_iff_exec (h : ∀ k < n, s.effAddr k < 0x1000) :
    p ∈ s.drawPoints x y n ↔ ∃ r < n, ∃ b < 8, ∃ u, exec (.drw x y r) s = .next u ∧
      spriteBit (u.peek (s.effAddr r)) b = true ∧
      spritePos s.params.drawEdge (s.startX x) (s.startY y) r b = some p := by
  rw [State.mem_drawPoints]
  refine exists_congr fun r => and_congr_right fun hr => ?_
  rw [exec_drw fun k hk => h k (hk.trans hr)]
  simp

/-- A draw flips the pixels it plots and no other. -/
theorem State.pixel_draw (hn : n < 16) {qx : Nat} (hq : qx < 64) (qy : Nat) :
    (s.draw x y n).pixel qx qy = if (qx, qy) ∈ s.drawPoints x y n then !s.pixel qx qy else s.pixel qx qy := by
  rw [State.draw_eq_plotAll]
  exact (s.setV vf 0).pixel_plotAll (fun _ hp => (State.drawPoints_range hp).1) (State.nodup_drawPoints hn) hq

theorem State.pixel_draw_ne_iff (hn : n < 16) {qx : Nat} (hq : qx < 64) (qy : Nat) :
    (s.draw x y n).pixel qx qy ≠ s.pixel qx qy ↔ (qx, qy) ∈ s.drawPoints x y n := by
  rw [State.pixel_draw hn hq]
  split
  · next hmem => simp [hmem]
  · next hmem => simp [hmem]

/-- VF is the collision: some plotted pixel was set. -/
theorem State.V_vf_draw (hn : n < 16) :
    (s.draw x y n).V vf = if ∃ p ∈ s.drawPoints x y n, s.pixel p.1 p.2 = true then 1 else 0 := by
  rw [State.draw_eq_plotAll]
  exact ((s.setV vf 0).V_plotAll (fun _ hp => (State.drawPoints_range hp).1) (State.nodup_drawPoints hn) vf).trans
    (if_congr (and_iff_right rfl) rfl (State.V_setV_same ..))

theorem State.V_vf_draw_eq_one_iff (hn : n < 16) :
    (s.draw x y n).V vf = 1 ↔ ∃ p ∈ s.drawPoints x y n, s.pixel p.1 p.2 = true := by
  rw [State.V_vf_draw hn]
  split
  · next hc => exact iff_of_true rfl hc
  · next hc => exact iff_of_false (by decide) hc

/-- A draw collides exactly when it takes some pixel of the screen from 1 to 0. -/
theorem State.exists_cleared_iff (hn : n < 16) :
    (∃ p ∈ s.drawPoints x y n, s.pixel p.1 p.2 = true) ↔
      ∃ px < 64, ∃ py < 32, s.pixel px py = true ∧ (s.draw x y n).pixel px py = false := by
  constructor
  · rintro ⟨p, hp, hset⟩
    obtain ⟨hx, hy⟩ := State.drawPoints_range hp
    refine ⟨p.1, hx, p.2, hy, hset, ?_⟩
    rw [State.pixel_draw hn hx, if_pos hp, hset, Bool.not_true]
  · rintro ⟨px, hx, py, _, hset, hclear⟩
    have hne : (s.draw x y n).pixel px py ≠ s.pixel px py := by simp [hset, hclear]
    exact ⟨(px, py), (State.pixel_draw_ne_iff hn hx py).mp hne, hset⟩

/-! ## A sprite outside the framebuffer, drawn twice -/

/-- A draw changes no byte outside the framebuffer (spec/20_memory.md R48). -/
theorem State.peek_draw {a : Nat} (ha : a < Config.fbBase ∨ Config.memSize ≤ a) :
    (s.draw x y n).peek a = s.peek a :=
  State.peek_drawRows _ _ n (s.setV vf 0) ha

/-- Outside the framebuffer the rows of a sprite are read as they were before the draw. -/
theorem State.mem_drawPoints_of_outside (hout : ∀ r < n, s.effAddr r < Config.fbBase) :
    p ∈ s.drawPoints x y n ↔ ∃ r < n, ∃ b < 8, spriteBit (s.peek (s.effAddr r)) b = true ∧
      spritePos s.params.drawEdge (s.startX x) (s.startY y) r b = some p := by
  rw [State.mem_drawPoints]
  refine exists_congr fun r => and_congr_right fun hr => ?_
  rw [State.peek_draw (.inl (hout r hr))]

/-- A draw from the memory a first one left, of the same sprite outside the framebuffer at the same start, plots the
same pixels. -/
theorem State.mem_drawPoints_again (hout : ∀ r < n, s.effAddr r < Config.fbBase) (hidx : u.idx = s.idx)
    (hparams : u.params = s.params) (hmem : ∀ a, u.peek a = (s.draw x y n).peek a)
    (hX : u.startX x' = s.startX x) (hY : u.startY y' = s.startY y) :
    p ∈ u.drawPoints x' y' n ↔ p ∈ s.drawPoints x y n := by
  have haddr : u.effAddr = s.effAddr := by
    funext r
    rw [State.effAddr, State.effAddr, hidx]
  rw [State.mem_drawPoints_of_outside hout, State.mem_drawPoints_of_outside (haddr ▸ hout), haddr, hparams, hX, hY]
  refine exists_congr fun r => and_congr_right fun hr => ?_
  rw [hmem, State.peek_draw (.inl (hout r hr))]

/-- A pixel depends on memory alone (spec/20_memory.md R45). -/
theorem State.pixel_congr {t : State} (h : ∀ a, u.peek a = t.peek a) (px py : Nat) :
    u.pixel px py = t.pixel px py := by
  rw [State.pixel, State.pixel, h]

/-- Each bit of a framebuffer byte is a pixel of the screen, so the pixels determine the byte (spec/20_memory.md
R45). -/
theorem State.peek_eq_of_pixel_eq (h : ∀ px < 64, ∀ py < 32, u.pixel px py = s.pixel px py) {a : Nat}
    (ha : Config.fbBase ≤ a ∧ a < Config.memSize) : u.peek a = s.peek a := by
  refine BitVec.eq_of_getLsbD_eq fun j hj => ?_
  unfold Config.fbBase Config.memSize at ha
  have haddr : fbAddr (8 * (a % 8) + (7 - j)) ((a - 0xF00) / 8) = a := by
    unfold fbAddr Config.fbBase Config.rowBytes
    omega
  have hbit : fbBit (8 * (a % 8) + (7 - j)) = j := by
    unfold fbBit
    omega
  have hpixel := h (8 * (a % 8) + (7 - j)) (by omega) ((a - 0xF00) / 8) (by omega)
  rwa [State.pixel, State.pixel, haddr, hbit] at hpixel

/-- A draw of the same pixels over what the first left flips them back (R118). -/
theorem State.pixel_draw_again (hn : n < 16) (hmem : ∀ a, u.peek a = (s.draw x y n).peek a)
    (hpoints : ∀ p, p ∈ u.drawPoints x' y' n ↔ p ∈ s.drawPoints x y n) {px : Nat} (hx : px < 64) (py : Nat) :
    (u.draw x' y' n).pixel px py = s.pixel px py := by
  rw [State.pixel_draw hn hx, State.pixel_congr hmem, State.pixel_draw hn hx]
  by_cases hp : (px, py) ∈ s.drawPoints x y n
  · rw [if_pos ((hpoints _).mpr hp), if_pos hp, Bool.not_not]
  · rw [if_neg fun hq => hp ((hpoints _).mp hq), if_neg hp]

/-- Such a draw restores every byte, since its pixels are those of the framebuffer (R118). -/
theorem State.peek_draw_again (hn : n < 16) (hmem : ∀ a, u.peek a = (s.draw x y n).peek a)
    (hpoints : ∀ p, p ∈ u.drawPoints x' y' n ↔ p ∈ s.drawPoints x y n) (a : Nat) :
    (u.draw x' y' n).peek a = s.peek a := by
  by_cases ha : Config.fbBase ≤ a ∧ a < Config.memSize
  · exact State.peek_eq_of_pixel_eq (fun _ hx py _ => State.pixel_draw_again hn hmem hpoints hx py) ha
  · have hout : a < Config.fbBase ∨ Config.memSize ≤ a := by omega
    rw [State.peek_draw hout, hmem, State.peek_draw hout]

/-- Such a draw collides exactly when the first one set a pixel that was clear (R118). -/
theorem State.V_vf_draw_again (hn : n < 16) (hmem : ∀ a, u.peek a = (s.draw x y n).peek a)
    (hpoints : ∀ p, p ∈ u.drawPoints x' y' n ↔ p ∈ s.drawPoints x y n) :
    (u.draw x' y' n).V vf = 1 ↔ ∃ p ∈ s.drawPoints x y n, s.pixel p.1 p.2 = false := by
  rw [State.V_vf_draw_eq_one_iff hn]
  refine exists_congr fun p => ?_
  rw [hpoints]
  refine and_congr_right fun hp => ?_
  rw [State.pixel_congr hmem, State.pixel_draw hn (State.drawPoints_range hp).1, if_pos hp, Bool.not_eq_true']

/-! ## The statements -/

/-- Settles O31: the check fails at the first address that does not exist; otherwise the pixels that change are those of
`State.drawPoints`, and VF is the collision of `State.V_vf_draw`. -/
theorem drawFlipsSpritePixels : Obligations.DrawFlipsSpritePixels := by
  intro x y n s hn
  refine ⟨.of_mask (by simpa [Instr.WellFormed] using hn) (encXyn_mask ..), ?_⟩
  have hcheck := s.readChecks_block n
  split
  · next habove => exact .of_guarded rfl (hcheck.trans (if_pos habove))
  · next habove =>
    rw [if_neg habove] at hcheck
    split
    · next hend => exact .of_guarded rfl (hcheck.trans (if_pos hend))
    · next hend =>
      rw [if_neg hend] at hcheck
      have hexist := State.readChecks_effAddrs_none.mp hcheck
      refine ⟨s.draw x y n, exec_drw hexist, ⟨rfl, fun px hx py _ => ?_, fun hclear => ?_, fun hkeep => ?_⟩,
        Frame.draw x y n s⟩
      · exact (State.pixel_draw_ne_iff hn hx py).trans (State.mem_drawPoints_iff_exec hexist)
      · exact (State.V_vf_draw_eq_one_iff hn).mpr ((State.exists_cleared_iff hn).mpr hclear)
      · rw [State.V_vf_draw hn, if_neg]
        intro hcollision
        obtain ⟨px, hx, py, hy, hset, hclear⟩ := (State.exists_cleared_iff hn).mp hcollision
        exact Bool.false_ne_true (hclear.symm.trans (hkeep px hx py hy hset))

/-- Settles O32. (a) The second draw plots the pixels of the first, so it flips them back and finds set what was clear.
(b) VF is the collision, which only a set pixel among the plotted ones can cause. -/
theorem doubleDrawRestores : Obligations.DoubleDrawRestores := by
  refine ⟨fun x y x' y' n s t u w hn hbelow hfirst hidx hparams hmem hX hY hsecond => ?_,
    fun x y n s t hn hexist hdraw => ?_⟩
  · have hout : ∀ r < n, s.effAddr r < Config.fbBase := hbelow
    have hexist : ∀ r < n, s.effAddr r < 0x1000 := fun r hr => (hout r hr).trans (by decide)
    have hexist' : ∀ r < n, u.effAddr r < 0x1000 := by simpa only [State.effAddr, hidx] using hexist
    obtain rfl := Host.Outcome.next.inj ((exec_drw hexist).symm.trans hfirst)
    obtain rfl := Host.Outcome.next.inj ((exec_drw hexist').symm.trans hsecond)
    have hpoints := fun p => State.mem_drawPoints_again (p := p) hout hidx hparams hmem hX hY
    refine ⟨State.peek_draw_again hn hmem hpoints, (State.V_vf_draw_again hn hmem hpoints).trans ?_⟩
    simp only [State.mem_drawPoints_of_outside hout, State.effAddr]
    constructor
    · rintro ⟨p, ⟨r, hr, b, hb, hbit, hpos⟩, hclear⟩
      exact ⟨r, hr, b, hb, p, hbit, hpos, hclear⟩
    · rintro ⟨r, hr, b, hb, p, hbit, hpos, hclear⟩
      exact ⟨p, ⟨r, hr, b, hb, hbit, hpos⟩, hclear⟩
  · obtain rfl := Host.Outcome.next.inj ((exec_drw hexist).symm.trans hdraw)
    refine ⟨(State.V_vf_draw_eq_one_iff hn).trans (State.exists_cleared_iff hn), fun hclear => ?_⟩
    rw [State.V_vf_draw hn, if_neg]
    rintro ⟨p, hp, hset⟩
    obtain ⟨r, hr, b, hb, _, hpos⟩ := State.mem_drawPoints.mp hp
    exact Bool.false_ne_true ((hclear r hr b hb p hpos).symm.trans hset)

/-- Settles O30: the stores of CLS are zeros, one to each framebuffer byte. -/
theorem clearScreenZeroesFramebuffer : Obligations.ClearScreenZeroesFramebuffer := by
  refine ⟨.of_mask rfl rfl, fun s => ?_⟩
  have hframe : Frame [] fbAddrs [.redrawPending] s ((s.pokeAll (fbAddrs.map fun a => (a, 0))).setRedraw true) :=
    (Frame.pokeAll (by simp) s).trans (Frame.setRedraw (List.mem_singleton.mpr rfl) true _)
  refine ⟨_, rfl, ⟨fun a hlo hhi => ?_, fun a ha => hframe.mem a fun hmem => ?_, rfl⟩, hframe⟩
  · rw [State.setRedraw_peek]
    exact s.peek_pokeAll_const fbAddrs 0 (mem_fbAddrs.mpr ⟨hlo, hhi⟩)
  · have := mem_fbAddrs.mp hmem
    omega

end Sys2Proof.Machine
end

section
/-! Key and timer instructions (spec/45_keys_timers.md R119 to R124): the two skips compare one key, the timer transfers
write one element, and FX0A has one end for each phase of the wait. -/

namespace Sys2Proof.Machine

variable {s : State}

/-! ## Keys as bytes (spec/10_state.md R30) -/

/-- A byte matches exactly the key that is down and has its value; none matches no byte (R30). -/
theorem keyMatches_iff {key : Option Key} {b : Byte} :
    keyMatches key b = true ↔ ∃ k, key = some k ∧ k.val = b.toNat := by
  cases key with
  | none => simp [keyMatches]
  | some k => simp [keyMatches]

/-- A byte does not match where no key is down or the one that is down has another value (R30). -/
theorem not_keyMatches_iff {key : Option Key} {b : Byte} :
    (!keyMatches key b) = true ↔ key = none ∨ ∃ k, key = some k ∧ k.val ≠ b.toNat := by
  cases key with
  | none => simp [keyMatches]
  | some k => simp [keyMatches]

/-- A key keeps its value as a byte. -/
theorem toNat_keyByte (k : Key) : (keyByte k).toNat = k.val :=
  (BitVec.toNat_ofNat ..).trans (Nat.mod_eq_of_lt (k.isLt.trans (by decide)))

/-! ## The sound output (spec/60_exceptions.md R136) -/

/-- The tone is on exactly while ST is not 0 (R136). -/
theorem State.soundOn_iff : s.soundOn = true ↔ s.st ≠ 0 := by
  rw [State.soundOn, decide_eq_true_iff, Nat.pos_iff_ne_zero, ne_eq, ne_eq, BitVec.toNat_eq]
  rfl

/-! ## The phases of FX0A (R124); for the waiting phase see `exec_ldVxK_of_unsatisfied` -/

/-- The first phase of FX0A starts the wait and rewinds PC. -/
theorem exec_ldVxK_of_not_waiting (x : Reg) (hw : s.waitingForKey = false) :
    exec (.ldVxK x) s = .next (s.setWaiting true).pcRewind := by
  show execLdVxK x s = _
  rw [execLdVxK, if_neg (by simp [hw])]

/-- The commit phase of FX0A with no key down faults. -/
theorem exec_ldVxK_of_no_key (x : Reg) (hw : s.waitingForKey = true) (hk : s.keyWaitSatisfied = true)
    (hkey : s.keyDown = none) : exec (.ldVxK x) s = .next (s.raiseIn (.ldVxK x) (.keyWaitNoKey, 0)) := by
  show execLdVxK x s = _
  rw [execLdVxK, if_pos hw, if_pos hk, hkey]

/-- The commit phase of FX0A with a key down commits it. -/
theorem exec_ldVxK_of_key (x : Reg) {k : Key} (hw : s.waitingForKey = true) (hk : s.keyWaitSatisfied = true)
    (hkey : s.keyDown = some k) : exec (.ldVxK x) s = .next (s.commitKey x k) := by
  show execLdVxK x s = _
  rw [execLdVxK, if_pos hw, if_pos hk, hkey]

/-- The commit writes Vx and the two wait bits only. -/
theorem Frame.commitKey (x : Reg) (k : Key) (s : State) :
    Frame [x] [] [.waitingForKey, .keyWaitSatisfied] s (s.commitKey x k) :=
  ((Frame.setV (by simp) _ _).trans (Frame.setWaiting (by simp) _ _)).trans (Frame.setSatisfied (by simp) _ _)

/-- The commit leaves the key in Vx. -/
theorem State.V_commitKey_same (x : Reg) (k : Key) (s : State) : (s.commitKey x k).V x = keyByte k :=
  s.V_setV_same x (keyByte k)

/-! ## The statements -/

/-- Settles O35, by the phases of the wait: not waiting, waiting with no report, and with a report the commit, which
faults where no key is down. -/
theorem keyWaitHasThreePhases : Obligations.KeyWaitHasThreePhases := by
  refine fun x s => ⟨.of_mask rfl (encXnn_mask_nn ..), ?_⟩
  split
  · next hw =>
    exact ⟨_, exec_ldVxK_of_not_waiting x hw, ⟨rfl, rfl⟩,
      (Frame.setWaiting (by simp) true s).trans (Frame.setPc (by simp) _ _)⟩
  · next hw =>
    have hw := Bool.eq_true_of_not_eq_false hw
    split
    · next hk => exact .of_setPc (exec_ldVxK_of_unsatisfied x hw hk) rfl
    · next hk =>
      have hk := Bool.eq_true_of_not_eq_false hk
      split
      · next hkey => exact exec_ldVxK_of_no_key x hw hk hkey
      · next hkey =>
        obtain ⟨k, hkey⟩ := Option.ne_none_iff_exists'.mp hkey
        have hV : ((s.commitKey x k).V x).toNat = k.val :=
          (congrArg BitVec.toNat (s.V_commitKey_same x k)).trans (toNat_keyByte k)
        exact ⟨_, exec_ldVxK_of_key x hw hk hkey, ⟨⟨k, hkey, hV⟩, rfl, rfl⟩, Frame.commitKey x k s⟩

/-- Settles O33: both handlers are skips, taken when the byte matches the key and when it does not. -/
theorem keySkipsCompareKeyDown : Obligations.KeySkipsCompareKeyDown :=
  fun _ _ =>
    ⟨⟨.of_mask rfl (encXnn_mask_nn ..), .of_skipIf rfl keyMatches_iff⟩,
      ⟨.of_mask rfl (encXnn_mask_nn ..), .of_skipIf rfl not_keyMatches_iff⟩⟩

/-- Settles O34: the first handler is one register write, the others each set one timer, and a set ST decides the tone by
`State.soundOn_iff`. -/
theorem timersAreReadAndWritten : Obligations.TimersAreReadAndWritten :=
  fun x s =>
    ⟨⟨.of_mask rfl (encXnn_mask_nn ..), .of_setV rfl (s.V_setV_same x s.dt)⟩,
      ⟨.of_mask rfl (encXnn_mask_nn ..), s.setDt (s.V x), rfl, rfl, Frame.setDt (by simp) _ s⟩,
      ⟨.of_mask rfl (encXnn_mask_nn ..), s.setSt (s.V x), rfl, ⟨rfl, State.soundOn_iff⟩, Frame.setSt (by simp) _ s⟩⟩

end Sys2Proof.Machine
end

section
/-! The host's moves (spec/60_exceptions.md R134, R135, R141 to R144): the schedule is fair and leaves no fair
interleaving out, and each move but a cycle, `initialize` and a load writes the one or two elements it names. -/

namespace Sys2Proof.Machine

variable {s t : State} {m : HostMove}

/-! ## The moves ahead (R135; entry 21) -/

/-- The moves the host makes next: those pending, and the `k` rounds after them. -/
def State.upcoming (s : State) (k : Nat) : List HostMove :=
  s.hostMoves ++ (List.range' s.rounds k).flatMap (roundMoves Config.hostGap)

/-- The next move is the first of the moves ahead, and taking it leaves the others ahead. -/
theorem State.upcoming_eq_cons {k : Nat} {rest : List HostMove} (h : s.upcoming k = m :: rest) :
    s.nextMove = m ∧ ∃ j, s.takeMove.upcoming j = rest := by
  have htaken (j : Nat) : s.takeMove.upcoming j =
      s.movesAfter ++ (List.range' s.roundAfter j).flatMap (roundMoves Config.hostGap) := rfl
  cases hp : s.hostMoves with
  | cons m' pending =>
    obtain ⟨hnext, hafter, hround⟩ := State.schedule_of_cons hp
    rw [State.upcoming, hp, List.cons_append, List.cons.injEq] at h
    exact ⟨hnext.trans h.1, k, by rw [htaken, hafter, hround, h.2]⟩
  | nil =>
    obtain ⟨hopen, hround⟩ := State.schedule_of_nil hp
    rw [State.upcoming, hp, List.nil_append] at h
    cases k with
    | zero => cases h
    | succ j =>
      rw [List.range'_succ, List.flatMap_cons, ← hopen, List.cons_append, List.cons.injEq] at h
      exact ⟨h.1, j, by rw [htaken, hround, h.2]⟩

/-- A run of `n` steps brings the host to the move that was `n` ahead. -/
theorem nextMove_of_run {n k : Nat} (hm : (s.upcoming k)[n]? = some m)
    (hrun : Host.Core.run Sys2Proof.core n s = .next t) : t.nextMove = m := by
  induction n generalizing s k with
  | zero =>
    obtain rfl := Host.Outcome.next.inj hrun
    obtain ⟨rest, hs⟩ := List.head?_eq_some_iff.mp ((List.head?_eq_getElem? ..).trans hm)
    exact (State.upcoming_eq_cons hs).1
  | succ n ih =>
    obtain ⟨u, hstep, hrun⟩ := step_of_run hrun
    obtain ⟨hmoves, hrounds⟩ := step_schedule hstep
    cases hs : s.upcoming k with
    | nil => simp [hs] at hm
    | cons m' rest =>
      obtain ⟨-, j, hj⟩ := State.upcoming_eq_cons hs
      have hu : u.upcoming j = rest := by rw [State.upcoming, hmoves, hrounds, ← hj, State.upcoming]
      rw [hs, List.getElem?_cons_succ, ← hu] at hm
      exact ih hm hrun

/-- Of two rounds in a row one ends in a cycle and the other in a tick. -/
theorem eq_roundEnd_of_cycle_or_tick (h : m = .cycle ∨ m = .tick) (k : Nat) :
    m = roundEnd k ∨ m = roundEnd (k + 1) := by
  unfold roundEnd
  rcases Nat.mod_two_eq_zero_or_one k with hk | hk
  · rw [if_pos hk, if_neg (by omega)]
    exact h
  · rw [if_neg (by omega), if_pos (by omega)]
    exact h.symm

/-- Both a cycle and a tick are among the moves of the next two rounds. -/
theorem State.mem_upcoming_two (h : m = .cycle ∨ m = .tick) (s : State) : m ∈ s.upcoming 2 := by
  rcases eq_roundEnd_of_cycle_or_tick h s.rounds with rfl | rfl <;>
    simp [State.upcoming, roundMoves, List.range'_succ]

/-- Settles O52: the move is among those pending and the next two rounds, and a run that gets that far comes to it. -/
theorem cyclesAndTicksRecur : Obligations.CyclesAndTicksRecur := by
  intro s m hm
  obtain ⟨n, hn⟩ := List.mem_iff_getElem?.mp (s.mem_upcoming_two hm)
  have hlt : n < (s.upcoming 2).length := (List.getElem?_eq_some_iff.mp hn).1
  refine ⟨n, ?_, ?_⟩
  · simp only [State.upcoming, roundMoves, List.range'_succ, List.range'_zero, List.flatMap_cons, List.flatMap_nil,
      List.length_append, List.length_singleton, List.length_nil] at hlt
    omega
  · by_cases hrun : ∃ t, Host.Core.run Sys2Proof.core n s = .next t
    · obtain ⟨t, ht⟩ := hrun
      exact .inr ⟨t, ht, nextMove_of_run hn ht⟩
    · exact .inl (not_exists.mp hrun)

/-! ## A fair sequence cut into rounds (R135; entry 21) -/

/-- Where round `k` begins in a sequence whose rounds end at `ends`. -/
def roundStart (ends : Nat → Nat) : Nat → Nat
  | 0 => 0
  | k + 1 => ends k + 1

/-- The moves of a sequence between the end of a round and the end of the next. -/
def gapBetween (moves : Nat → HostMove) (ends : Nat → Nat) (k : Nat) : List HostMove :=
  (List.Ico (roundStart ends k) (ends k)).map moves

variable {moves : Nat → HostMove} {ends : Nat → Nat}

/-- A fair sequence has the end of each round, in order. -/
theorem FairSchedule.exists_ends (h : FairSchedule moves) :
    ∃ ends : Nat → Nat, StrictMono ends ∧ ∀ k, moves (ends k) = roundEnd k := by
  refine Filter.extraction_forall_of_frequently fun k => Filter.frequently_atTop.mpr (h (roundEnd k) ?_)
  unfold roundEnd
  split <;> simp

theorem roundStart_le (hends : StrictMono ends) (k : Nat) : roundStart ends k ≤ ends k := by
  cases k with
  | zero => exact Nat.zero_le _
  | succ k => exact hends (Nat.lt_succ_self k)

theorem le_roundStart (hends : StrictMono ends) (k : Nat) : k ≤ roundStart ends k := by
  cases k with
  | zero => exact Nat.zero_le _
  | succ k => exact Nat.succ_le_succ hends.le_apply

/-- The moves from one end to the next are those of the round. -/
theorem roundMoves_gapBetween (hends : StrictMono ends) {k : Nat} (hk : moves (ends k) = roundEnd k) :
    roundMoves (gapBetween moves ends) k =
      (List.Ico (roundStart ends k) (roundStart ends (k + 1))).map moves := by
  rw [roundMoves, gapBetween, roundStart, List.Ico.succ_top (roundStart_le hends k), List.map_append,
    List.map_singleton, hk]

/-- The first rounds, one after the other, are the sequence up to where the next one begins. -/
theorem flatMap_roundMoves_gapBetween (hends : StrictMono ends) (hmoves : ∀ k, moves (ends k) = roundEnd k)
    (n : Nat) :
    (List.range n).flatMap (roundMoves (gapBetween moves ends)) = (List.range (roundStart ends n)).map moves := by
  induction n with
  | zero => rfl
  | succ n ih =>
    have hle : roundStart ends n ≤ roundStart ends (n + 1) := Nat.le_succ_of_le (roundStart_le hends n)
    rw [List.range_succ, List.flatMap_append, ih, List.flatMap_singleton, roundMoves_gapBetween hends (hmoves n),
      ← List.map_append, ← List.Ico.zero_bot, List.Ico.append_consecutive (Nat.zero_le _) hle, List.Ico.zero_bot]

/-- Settles O53: the rounds end at the cycles and ticks that `FairSchedule.exists_ends` picks, and their gaps are the
moves between. -/
theorem fairSchedulesAreRounds : Obligations.FairSchedulesAreRounds := by
  intro moves hfair
  obtain ⟨ends, hends, hmoves⟩ := hfair.exists_ends
  exact ⟨gapBetween moves ends, fun n =>
    ⟨roundStart ends n, le_roundStart hends n, flatMap_roundMoves_gapBetween hends hmoves n⟩⟩

/-! ## Frames -/

/-- A change of `running` alone. -/
theorem Frame.setRunning {regs : List Reg} {stored : List Nat} {parts : List Part} (h : .running ∈ parts) (b : Bool)
    (s : State) : Frame regs stored parts s (s.setRunning b) :=
  { Frame.refl regs stored parts s with running := fun hn => absurd h hn }

/-- A change of `loadOpen` alone. -/
theorem Frame.setLoadOpen {regs : List Reg} {stored : List Nat} {parts : List Part} (h : .loadOpen ∈ parts) (b : Bool)
    (s : State) : Frame regs stored parts s (s.setLoadOpen b) :=
  { Frame.refl regs stored parts s with loadOpen := fun hn => absurd h hn }

/-- A tick writes the two timers (R134). -/
theorem Frame.tickTimers {regs : List Reg} {stored : List Nat} {parts : List Part} (hdt : .dt ∈ parts)
    (hst : .st ∈ parts) (s : State) : Frame regs stored parts s s.tickTimers :=
  (Frame.setDt hdt _ s).trans (Frame.setSt hst _ _)

/-! ## A tick (R134) -/

/-- A timer counts down to 0 at the least (R134). -/
theorem toNat_countDown (b : Byte) : (countDown b).toNat = if 0 < b.toNat then b.toNat - 1 else 0 := by
  have hfits : b.toNat - 1 < 2 ^ 8 := by omega
  refine ((BitVec.toNat_ofNat ..).trans (Nat.mod_eq_of_lt hfits)).trans ?_
  split <;> omega

/-- A step is the host's next move (R141). -/
theorem step_of_nextMove (h : s.nextMove = m) : step s = hostMove m s.takeMove := by
  rw [step, nextOperation, h]

/-- A tick counts the timers down where the core is live (R134). -/
theorem step_of_tick (h : s.nextMove = .tick) : step s = ifLive (fun u => .next u.tickTimers) s.takeMove :=
  step_of_nextMove h

/-- Settles O37: a live core ticks (`ifLive_of_live`), and a core that has a next state is live (`ifLive_next`). -/
theorem tickCountsBothTimersDown : Obligations.TickCountsBothTimersDown := by
  refine fun s hm => ⟨fun hl => ?_, fun hl t h => hl ?_⟩
  · exact ⟨_, (step_of_tick hm).trans (ifLive_of_live (s := s.takeMove) hl _), toNat_countDown s.dt,
      toNat_countDown s.st, rfl,
      (Frame.setLoadOpen (by simp) false s.takeMove).trans (Frame.tickTimers (by simp) (by simp) _)⟩
  · rw [step_of_tick hm] at h
    exact (ifLive_next h).1

/-! ## The moves that write what they name (R142 to R144) -/

/-- A key report on a core that waits writes the key and the flag (R143). -/
theorem keyReport_of_waiting (k : Option Key) (hw : s.waitingForKey = true) :
    keyReport k s = .next ((s.setKeyDown k).setSatisfied true) :=
  if_pos hw

/-- A key report on a core that does not wait is refused (entry 12). -/
theorem keyReport_of_not_waiting (k : Option Key) (hw : s.waitingForKey = false) :
    keyReport k s = .refused .reportWhileNotWaiting :=
  if_neg (by simp [hw])

/-- Settles O50: each step is its move, which sets the elements it names; a key report looks at the wait first. -/
theorem hostMovesWriteOnlyTheirState : Obligations.HostMovesWriteOnlyTheirState := by
  intro s
  refine ⟨fun k hm => ?setKey, fun k hm hw => ?report, fun k hm hw => ?refused, fun hm => ?ack, fun hm => ?quit⟩
  case setKey => exact ⟨_, step_of_nextMove hm, rfl, Frame.setKeyDown (by simp) k _⟩
  case report =>
    exact ⟨_, (step_of_nextMove hm).trans (keyReport_of_waiting (s := s.takeMove) k hw), rfl, rfl,
      (Frame.setKeyDown (by simp) k _).trans (Frame.setSatisfied (by simp) true _)⟩
  case refused => exact (step_of_nextMove hm).trans (keyReport_of_not_waiting (s := s.takeMove) k hw)
  case ack => exact ⟨_, step_of_nextMove hm, rfl, Frame.setRedraw (by simp) false _⟩
  case quit => exact ⟨_, step_of_nextMove hm, rfl, Frame.setRunning (by simp) false _⟩

end Sys2Proof.Machine
end

section
/-! Reset and loading (spec/70_reset_and_hazards.md R147 to R150): what `initialize` leaves, what a load copies or
answers, which steps leave loading open, and the font along a run. -/

namespace Sys2Proof.Machine

variable {s t : State} {rom : List Byte}

/-! ## The reset of a state (R147) -/

/-- `initialize` leaves memory as it reads at reset (spec/10_state.md R40). -/
theorem initMachine_peek (s : State) (a : Nat) : (initMachine s).peek a = resetByte s.params a :=
  State.peek_of_mem_nil rfl a

/-- Settles O47: the step is `initMachine`, whose registers, stack and memory are those of reset; every other element is
set by its definition. -/
theorem initializeResetsEveryState : Obligations.InitializeResetsEveryState := fun s hm =>
  ⟨initMachine s.takeMove, step_of_nextMove hm, State.reset_V, rfl, rfl, rfl, rfl, fun _ => State.reset_stackAt,
    fun a ha => (initMachine_peek s.takeMove a).trans (resetByte_font _ ha),
    fun a ha => (initMachine_peek s.takeMove a).trans (resetByte_zero _ ha),
    rfl, rfl, rfl, rfl, rfl, rfl, rfl, rfl, rfl, rfl, rfl, rfl⟩

/-! ## The answers of a load (R148, R149) -/

theorem loadProgram_of_closed (rom : Option (List Byte)) (h : s.loadOpen = false) :
    loadProgram rom s = .refused .loadNotOpen := by
  simp [loadProgram, h]

theorem loadProgram_none (h : s.loadOpen = true) : loadProgram none s = .refused .romUnreadable := by
  simp [loadProgram, h]

theorem loadProgram_of_empty (h : s.loadOpen = true) (hlen : rom.length = 0) :
    loadProgram (some rom) s = .refused .romEmpty := by
  simp only [loadProgram, h, if_true, if_pos hlen]

theorem loadProgram_of_long (h : s.loadOpen = true) (hlen : Config.romMax < rom.length) :
    loadProgram (some rom) s = .refused .romTooLarge := by
  have hne : rom.length ≠ 0 := Nat.ne_zero_of_lt hlen
  simp only [loadProgram, h, if_true, if_neg hne, if_pos hlen]

/-- A ROM that is not empty and fits is stored, and loading closes. -/
theorem loadProgram_of_fits (h : s.loadOpen = true) (hne : rom.length ≠ 0) (hlen : ¬ Config.romMax < rom.length) :
    loadProgram (some rom) s = .next ((s.pokeAll (romStores rom)).setLoadOpen false) := by
  simp only [loadProgram, h, if_true, if_neg hne, if_neg hlen]

/-! ## The bytes of a load (R148) -/

/-- A ROM goes to as many addresses from 0x200 up as it has bytes. -/
theorem romStores_addresses (rom : List Byte) :
    (romStores rom).map Prod.fst = (List.range rom.length).map (0x200 + ·) :=
  List.map_fst_zip (by simp)

theorem mem_romStores {k : Nat} (hk : k < rom.length) : (0x200 + k, rom[k]) ∈ romStores rom :=
  List.mem_iff_getElem.mpr ⟨k, by simp [romStores, hk], by simp [romStores, Config.progBase]⟩

/-- Byte `k` of a ROM is read back at 0x200 + k. -/
theorem State.peek_romStores (s : State) {k : Nat} (hk : k < rom.length) :
    (s.pokeAll (romStores rom)).peek (0x200 + k) = rom[k] := by
  refine s.peek_pokeAll_of_mem (romStores rom) ?_ (mem_romStores hk)
  rw [romStores_addresses]
  exact List.nodup_range.map fun _ _ h => Nat.add_left_cancel h

/-- A load changes the bytes it stores to and closes loading. -/
theorem Frame.load (rom : List Byte) (s : State) :
    Frame [] ((List.range rom.length).map (0x200 + ·)) [.loadOpen] s
      ((s.pokeAll (romStores rom)).setLoadOpen false) := by
  rw [← romStores_addresses]
  exact (Frame.pokeAll (fun _ hc => List.mem_map_of_mem hc) s).trans
    (Frame.setLoadOpen (List.mem_singleton.mpr rfl) false _)

/-- Settles O48: the step is the load, which answers by the ROM's length; a copied byte is read back by
`State.peek_romStores`, and `Frame.load` says what stays. -/
theorem loadProgramCopiesTheRom : Obligations.LoadProgramCopiesTheRom := by
  intro s rom hm hopen
  have hstep : step s = loadProgram rom s.takeMove := step_of_nextMove hm
  have htaken : s.takeMove.loadOpen = true := hopen
  cases rom with
  | none => exact hstep.trans (loadProgram_none htaken)
  | some bytes =>
    dsimp only
    split_ifs with hempty hlong
    · exact hstep.trans (loadProgram_of_empty htaken hempty)
    · exact hstep.trans (loadProgram_of_long htaken hlong)
    · have hframe := Frame.load bytes s.takeMove
      refine ⟨_, hstep.trans (loadProgram_of_fits htaken hempty hlong), fun _ => s.takeMove.peek_romStores,
        fun a ha => hframe.mem a fun hmem => ?_, rfl, hframe⟩
      obtain ⟨k, hk, rfl⟩ := List.mem_map.mp hmem
      have hk := List.mem_range.mp hk
      omega

/-! ## When loading is open (R149) -/

/-- A cycle leaves `loadOpen` as it found it (entry 2). -/
theorem cycleBody_keeps_loadOpen (h : cycleBody s = .next t) : t.loadOpen = s.loadOpen := by
  rcases cycleBody_cases s with ⟨_, hc⟩ | ⟨_, _, hc⟩ | ⟨i, u, _, _, hu, hc⟩ <;>
    obtain rfl := Host.Outcome.next.inj (h.symm.trans hc)
  · rfl
  · rfl
  · exact ((endCycle_frame s.pcForward u).loadOpen (by decide)).trans (exec_keeps_loadOpen (s := s.pcForward) hu)

/-- A cycle, a tick and a load close the time of loading, `initialize` opens it, and every other step leaves it
(spec/60_exceptions.md R141; entry 2). -/
theorem step_loadOpen (h : step s = .next t) :
    t.loadOpen = false ∨ s.nextMove = .initMachine ∨
      (t.loadOpen = s.loadOpen ∧ s.nextMove ≠ .cycle ∧ s.nextMove ≠ .tick ∧
        ∀ rom, s.nextMove ≠ .loadProgram rom) := by
  rcases step_cases h with ⟨_, _, hc⟩ | ⟨_, _, rfl⟩ | ⟨hm, _⟩ | ⟨bytes, _, _, _, _, rfl⟩ | ⟨k, hm, rfl⟩ |
    ⟨k, hm, _, rfl⟩ | ⟨hm, rfl⟩ | ⟨hm, rfl⟩
  · exact .inl (cycleBody_keeps_loadOpen hc)
  · exact .inl rfl
  · exact .inr (.inl hm)
  · exact .inl rfl
  all_goals exact .inr (.inr ⟨rfl, by simp [hm]⟩)

/-- Settles O49: a load looks at the bit first, and a step that leaves it set is one of the last two of
`step_loadOpen`. -/
theorem loadingIsOpenOnlyAfterInitialize : Obligations.LoadingIsOpenOnlyAfterInitialize := by
  refine ⟨fun s rom hm hclosed => ?_, fun s t h hopen => ?_⟩
  · exact (step_of_nextMove hm).trans (loadProgram_of_closed (s := s.takeMove) rom hclosed)
  · rcases step_loadOpen h with hclosed | hm | ⟨hkept, hother⟩
    · exact absurd (hclosed.symm.trans hopen) Bool.false_ne_true
    · exact .inl hm
    · exact .inr ⟨hkept.symm.trans hopen, hother⟩

/-! ## The font along a run (R150) -/

/-- What every step keeps holds at the end of a run that began with it. -/
theorem run_keeps {P : State → Prop} (hP : ∀ s t, P s → step s = .next t → P t) {k : Nat} (hs : P s)
    (h : Host.Core.run Sys2Proof.core k s = .next t) : P t := by
  induction k generalizing s with
  | zero => exact Host.Outcome.next.inj h ▸ hs
  | succ k ih =>
    obtain ⟨u, hstep, hrun⟩ := step_of_run h
    exact ih (hP s u hs hstep) hrun

/-- Where nothing below 0x200 is listed, the font is at 0x000 (spec/20_memory.md R52). -/
theorem State.MemOk.peek_font (h : s.MemOk) {a : Nat} (ha : a < 80) : s.peek a = s.params.fontData[a] :=
  (h.peek_low (ha.trans (by decide))).trans (resetByte_font _ ha)

/-- Settles O43: the canonical form of memory (O46, O41) and the parameters (O44) are kept along the run, and the font
is read off both. -/
theorem fontHoldsInEveryReachableState : Obligations.FontHoldsInEveryReachableState := by
  intro p moves round k t h
  obtain ⟨hreset, -⟩ := resetMeetsTheInvariants p moves round
  obtain ⟨hmem, rfl⟩ : t.MemOk ∧ t.params = p :=
    run_keeps (P := fun u => u.MemOk ∧ u.params = p)
      (fun u v ⟨hmem, hp⟩ hstep =>
        ⟨stepKeepsMemoryCanonical u v hmem hstep, (stepKeepsParameters u v hstep).trans hp⟩)
      ⟨hreset, rfl⟩ h
  exact ⟨rfl, fun _ => hmem.peek_font⟩

end Sys2Proof.Machine
end
